-- ==== Sys2Proof/Word.lean ====
section
/-! DEFINITION. The word types of the block (00_scope.md R2, R6, R7) and the raw command that crosses the command port
(30_encoding.md R55). No arithmetic stands here: rotations, split and join are in Machine/Ops.lean. -/

namespace Sys2Proof

/-- A half-block or a round key: 64 bits, unsigned (R2, R7). -/
abbrev Word := BitVec 64

/-- A block or a key: 128 bits, unsigned (R2, R7). -/
abbrev Block := BitVec 128

/-- The status code of a response, the 2-bit port `rsp_status` (30_encoding.md R62). -/
abbrev StatusCode := BitVec 2

/-- The triple `(OP, A, K)` sampled in the accepting cycle (30_encoding.md R55). -/
structure Command where
  op : BitVec 8
  a  : Block
  k  : Word
  deriving DecidableEq, Repr

end Sys2Proof
end

