-- ==== Sys2Proof/Config.lean ====
section
/-! DEFINITION. What is fixed for the hardware (00_scope.md R2), and what the spec leaves open: the latency parameters
(70_reset_and_hazards.md R155) and the contents of RK after a reset (10_state.md R31). An open value is an opaque constant:
nothing can be proved of it but what its type says. -/

namespace Sys2Proof

/-- What `DECODE` returns: the five operations, or ILLEGAL (30_encoding.md R65). The latency parameters are indexed by it
(70_reset_and_hazards.md R155). -/
inductive Kind where
  | keyset | encrypt | decrypt | round | invround | illegal
  deriving DecidableEq, Repr

/-- ALPHA, the rotation of the high half (00_scope.md R2). -/
def Config.alpha : Nat := 8

/-- BETA, the rotation of the low half (00_scope.md R2). -/
def Config.beta : Nat := 3

/-- The round count, which is also the number of round keys (00_scope.md R2, 41_block_cipher.md R107). -/
def Config.rounds : Nat := 32

/-- OPEN (assumption 3): one less than the latency of each kind of command. It has no body. -/
opaque Config.latencyLessOne : Kind → Nat

/-- `LAT_KEYSET`, `LAT_ENCRYPT`, `LAT_DECRYPT`, `LAT_ROUND`, `LAT_INVROUND`, `LAT_ILLEGAL`: integers of at least 1 that
depend on nothing but the kind (00_scope.md R5, 70_reset_and_hazards.md R155). -/
def Config.latency (k : Kind) : Nat := Config.latencyLessOne k + 1

/-- FREE VALUE (assumption 2): what RK holds after the `n`-th reset, where the spec calls it unspecified
(10_state.md R31, 70_reset_and_hazards.md R150 and R151). It has no body. -/
opaque Config.freeRoundKeys : Nat → Vector Word 32

end Sys2Proof
end

