-- ==== Sys2Proof/Syntax.lean ====
section
/-! DEFINITION. The instruction set: the five commands of spec/opcode_table.json (30_encoding.md R57, 60_exceptions.md R141).
Every command has the one format CMD, so every constructor carries both operand fields, A and K (R55); the commands that
ignore K still have it in their word (R61, R63). -/

namespace Sys2Proof

/-- The commands of the block; `a` is the field A and `k` the field K of the command word. -/
inductive Instr where
  /-- KEYSET, OP 0x01 (41_block_cipher.md R104): `a` is the key, `k` is ignored. -/
  | keyset (a : Block) (k : Word)
  /-- ENCRYPT, OP 0x02 (41_block_cipher.md R105): `a` is the plaintext, `k` is ignored. -/
  | encrypt (a : Block) (k : Word)
  /-- DECRYPT, OP 0x03 (41_block_cipher.md R106): `a` is the ciphertext, `k` is ignored. -/
  | decrypt (a : Block) (k : Word)
  /-- ROUND, OP 0x04 (40_round_engine.md R85): `a` is `x || y`, `k` the round key. -/
  | round (a : Block) (k : Word)
  /-- INVROUND, OP 0x05 (40_round_engine.md R86): `a` is `x || y`, `k` the round key. -/
  | invround (a : Block) (k : Word)
  deriving DecidableEq, Repr

/-- Which of the five operations an instruction is. -/
def Instr.kind : Instr → Kind
  | .keyset _ _ => .keyset
  | .encrypt _ _ => .encrypt
  | .decrypt _ _ => .decrypt
  | .round _ _ => .round
  | .invround _ _ => .invround

end Sys2Proof
end

