-- ==== Sys2Proof/WellFormed.lean ====
section
/-! DEFINITION. Which commands are legal. The fields of an `Instr` have exactly the widths of the command word (R55, R59), so
every `Instr` is well formed by its type; what can be ill formed is a raw command, by its opcode byte (30_encoding.md R56,
R57, R60), and a line of assembly text, by a literal that does not fit (`AsmLine.wellFormed`, Machine/Assembler.lean). -/

namespace Sys2Proof

/-- `RSV = OP[7:4]` is zero (30_encoding.md R56). -/
def Command.rsvIsZero (c : Command) : Bool := c.op.toNat / 16 == 0

/-- `FUNC = OP[3:0]` is one of the five assigned values (30_encoding.md R57, R60). -/
def Command.funcIsAssigned (c : Command) : Bool := [1, 2, 3, 4, 5].contains (c.op.toNat % 16)

/-- The command is one of the five legal ones (30_encoding.md R57). -/
def Command.wellFormed (c : Command) : Bool := c.rsvIsZero && c.funcIsAssigned

end Sys2Proof
end

