-- ==== Sys2Proof/Decode.lean ====
section
/-! DEFINITION. The 200-bit command word and its fields (30_encoding.md R55, R56), DECODE (R65), total and rejecting by name,
and after it the encoder written from the opcode map (R57). -/

namespace Sys2Proof

/-- Why an opcode byte is illegal: the two bullets of 30_encoding.md R60. All illegal commands behave alike. -/
inductive Illegal where
  /-- `RSV ≠ 0000`: OP 0x10 to 0xFF. -/
  | reservedBits
  /-- `RSV = 0000` and FUNC unassigned: OP 0x00 and 0x06 to 0x0F. -/
  | unassignedFunc
  deriving DecidableEq, Repr

/-- `CW = OP || A || K` (30_encoding.md R55). -/
def Command.toWord (c : Command) : BitVec 200 := (c.op ++ c.a ++ c.k : BitVec (8 + 128 + 64))

/-- The fields of a command word: OP = CW[199:192], A = CW[191:64], K = CW[63:0] (30_encoding.md R55). -/
def Command.ofWord (w : BitVec 200) : Command :=
  { op := w.extractLsb' 192 8, a := w.extractLsb' 64 128, k := w.extractLsb' 0 64 }

/-- `RSV = OP[7:4]` (30_encoding.md R56). -/
def rsvOf (op : BitVec 8) : BitVec 4 := op.extractLsb' 4 4

/-- `FUNC = OP[3:0]` (30_encoding.md R56). -/
def funcOf (op : BitVec 8) : BitVec 4 := op.extractLsb' 0 4

/-- DECODE (30_encoding.md R65), with the operands of R55: it looks at OP only to select the command. -/
def decode (c : Command) : Except Illegal Instr :=
  if rsvOf c.op ≠ 0b0000#4 then .error .reservedBits
  else if funcOf c.op = 0b0001#4 then .ok (.keyset c.a c.k)
  else if funcOf c.op = 0b0010#4 then .ok (.encrypt c.a c.k)
  else if funcOf c.op = 0b0011#4 then .ok (.decrypt c.a c.k)
  else if funcOf c.op = 0b0100#4 then .ok (.round c.a c.k)
  else if funcOf c.op = 0b0101#4 then .ok (.invround c.a c.k)
  else .error .unassignedFunc

/-- What `DECODE(OP)` of 30_encoding.md R65 returns. -/
def decodeKind (c : Command) : Kind :=
  match decode c with
  | .ok i => i.kind
  | .error _ => .illegal

/-- DECODE on a command word. -/
def decodeWord (w : BitVec 200) : Except Illegal Instr := decode (Command.ofWord w)

/-- The opcode byte of each command (30_encoding.md R57). -/
def opcodeOf : Instr → BitVec 8
  | .keyset _ _ => 0x01#8
  | .encrypt _ _ => 0x02#8
  | .decrypt _ _ => 0x03#8
  | .round _ _ => 0x04#8
  | .invround _ _ => 0x05#8

/-- The field A of an instruction. -/
def fieldA : Instr → Block
  | .keyset a _ | .encrypt a _ | .decrypt a _ | .round a _ | .invround a _ => a

/-- The field K of an instruction. -/
def fieldK : Instr → Word
  | .keyset _ k | .encrypt _ k | .decrypt _ k | .round _ k | .invround _ k => k

/-- The command that stands for an instruction (30_encoding.md R55, R57). -/
def encode (i : Instr) : Command := { op := opcodeOf i, a := fieldA i, k := fieldK i }

/-- The command word of an instruction. -/
def encodeWord (i : Instr) : BitVec 200 := (encode i).toWord

/-- The command word whose bits are the low `nbits` bits of `w`, numbered as the opcode table numbers them: bit 0 is the
least significant bit of CW, and every bit from `nbits` up is 0. -/
def tableWord (nbits w : Nat) : BitVec 200 := BitVec.ofNat 200 (w % 2 ^ nbits)

/-- What the decoder reads from the opcode table's word `w` of `nbits` bits; none where it is illegal. -/
def decodeTableWord (nbits w : Nat) : Option Instr :=
  match decodeWord (tableWord nbits w) with
  | .ok i => some i
  | .error _ => none

end Sys2Proof
end

