-- ==== Sys2Proof/Machine/State.lean ====
section
/-! DEFINITION. The state of the block (10_state.md R20, R31), the ports through which the host drives it (30_encoding.md R66),
and the reasons a step can stop: the spec gives none. The block has no memory and no program counter (20_memory.md R40,
10_state.md R28): its next command is read from the command port, and what the host drives on the input ports is the list
`inputs`. -/

namespace Sys2Proof.Machine

/-- A response: `rsp_status` and `rsp_data` (30_encoding.md R62). -/
structure Response where
  status : StatusCode
  data   : Block
  deriving DecidableEq, Repr

/-- Where the one outstanding command stands (70_reset_and_hazards.md R153). BUSY and the pending response of 10_state.md R20
are both views of it: `State.busy` and `State.pending`. -/
inductive Phase where
  /-- BUSY = 0: no command is outstanding and no response is pending. -/
  | idle
  /-- BUSY = 1: `cmd` was accepted, and `wait` more cycles pass before its response is valid (R153 step 3). -/
  | running (cmd : Command) (wait : Nat)
  /-- BUSY = 1, `rsp_valid` = 1: the command, whose kind was `kind`, is complete and its response is held (R153 step 4). -/
  | holding (kind : Kind) (rsp : Response)
  deriving DecidableEq, Repr, Inhabited

/-- What the host drives on the input ports in one step (30_encoding.md R66); `clk` is the step itself. -/
structure PortIn where
  rst      : Bool
  cmdValid : Bool
  cmd      : Command
  rspReady : Bool
  deriving DecidableEq, Repr

/-- Every input port at 0. -/
def PortIn.low : PortIn :=
  { rst := false, cmdValid := false, cmd := { op := 0, a := 0, k := 0 }, rspReady := false }

/-- The state. `rk` and `keyed` are the transaction-level state `(RK, KEYED)` of 60_exceptions.md R134; `phase` is the
signal-level state of 10_state.md R20. `inputs` and `freeCount` are the model's own. -/
structure State where
  /-- `RK[0..31]`, the round-key file (10_state.md R21). -/
  rk : Vector Word 32
  /-- `KEYED` (10_state.md R23). -/
  keyed : Bool
  /-- `BUSY` and the pending response (10_state.md R20). -/
  phase : Phase
  /-- What the host drives, the present step first; after its end every input port is 0. -/
  inputs : List PortIn
  /-- How many resets there were: the index of the next free contents of RK (assumption 2). -/
  freeCount : Nat
  deriving DecidableEq, Repr, Inhabited

/-- The faults. There is none: every operation is total, and an error is a response, after which the block goes on
(60_exceptions.md R130, R133). -/
inductive Fault where
  deriving DecidableEq, Repr

/-- The refusals. -/
inductive Refusal where
  /-- Raised by an arm of `exec` for an instruction that has no meaning yet: none is left. Safe: the machine stops. -/
  | notModelled (mnemonic : String)
  deriving DecidableEq, Repr

/-- The machine right after reset (10_state.md R31): KEYED = 0, BUSY = 0, no pending response. The spec gives RK no value; the
model holds zeros there (DESIGN CHOICE, assumption 1), which nothing reads while KEYED = 0. -/
def State.reset : State :=
  { rk := Vector.replicate 32 0, keyed := false, phase := .idle, inputs := [], freeCount := 0 }

/-- FREE VALUE (assumption 4): the state after power is applied and before the first reset, when "every piece of state is
unspecified" (70_reset_and_hazards.md R150). It has no body. -/
opaque State.powerUp : State

end Sys2Proof.Machine
end

