-- ==== Sys2Proof/Machine/Flags.lean ====
section
/-! DEFINITION. The status codes of a response (30_encoding.md R62) and the STATUS port (10_state.md R27). The block has no
flags and no condition codes: carries and borrows are discarded (10_state.md R29). -/

namespace Sys2Proof.Machine

/-- `OK` (30_encoding.md R62). -/
def statusOk : StatusCode := 0b00#2

/-- `ERR_ILLEGAL` (30_encoding.md R62, 60_exceptions.md R131). -/
def statusErrIllegal : StatusCode := 0b01#2

/-- `ERR_NOKEY` (30_encoding.md R62, 60_exceptions.md R131). -/
def statusErrNoKey : StatusCode := 0b10#2

/-- The reserved code, never produced (30_encoding.md R62). -/
def statusReserved : StatusCode := 0b11#2

/-- `BUSY` (10_state.md R20): 1 from the cycle after acceptance through the cycle in which the response is consumed
(10_state.md R27, 70_reset_and_hazards.md R153). -/
def State.busy (s : State) : Bool :=
  match s.phase with
  | .idle => false
  | .running _ _ => true
  | .holding _ _ => true

/-- The pending response (10_state.md R20); none when `rsp_valid` = 0. -/
def State.pending (s : State) : Option Response :=
  match s.phase with
  | .idle => none
  | .running _ _ => none
  | .holding _ r => some r

/-- The STATUS port: bit 0 KEYED, bit 1 BUSY, bits [7:2] always 0 (10_state.md R27). -/
def State.statusPort (s : State) : BitVec 8 :=
  0b000000#6 ++ BitVec.ofBool s.busy ++ BitVec.ofBool s.keyed

end Sys2Proof.Machine
end

