-- ==== Sys2Proof/Machine/Operands.lean ====
section
/-! DEFINITION. The operands of a command (30_encoding.md R58): the halves of A, and the split and join of a 128-bit value
(00_scope.md R11). Every operand is used at its full width, as presented (R59). -/

namespace Sys2Proof.Machine

/-- `A[127:64]`: the key's `k1`, the block's `x` (30_encoding.md R55, R58). -/
def highHalf (v : Block) : Word := v.extractLsb' 64 64

/-- `A[63:0]`: the key's `k2`, the block's `y` (30_encoding.md R55, R58). -/
def lowHalf (v : Block) : Word := v.extractLsb' 0 64

/-- `SPLIT` (00_scope.md R11). -/
def split (v : Block) : Word × Word := (highHalf v, lowHalf v)

/-- `JOIN(hi, lo) = hi || lo` (00_scope.md R11). -/
def join (hi lo : Word) : Block := hi ++ lo

/-- `zext_64` of the 5-bit round index (00_scope.md R7). -/
def zext64 (i : BitVec 5) : Word := i.setWidth 64

end Sys2Proof.Machine
end

