-- ==== Sys2Proof/Machine/Ops.lean ====
section
/-! DEFINITION. The shared operations: rotations (00_scope.md R10), the round functions (40_round_engine.md R80, R81), the key
schedule (R83), the block pipelines (41_block_cipher.md R100, R101), the response and the error response (00_scope.md R12,
60_exceptions.md R131, R133), the write of the round-key file, reset, and the host's side of the ports. -/

namespace Sys2Proof.Machine

/-! ## Pure functions -/

/-- `ror64(v, r)` for `0 < r < 64` (00_scope.md R10). -/
def ror64 (v : Word) (r : Nat) : Word := (v >>> r) ||| (v <<< (64 - r))

/-- `rol64(v, r)` for `0 < r < 64` (00_scope.md R10). -/
def rol64 (v : Word) (r : Nat) : Word := (v <<< r) ||| (v >>> (64 - r))

/-- `ROUND_F` (40_round_engine.md R80): `y'` uses the new `x'`. -/
def roundF (x y k : Word) : Word × Word :=
  let t := ror64 x Config.alpha + y
  let x' := t ^^^ k
  let y' := rol64 y Config.beta ^^^ x'
  (x', y')

/-- `INV_ROUND_F` (40_round_engine.md R81): `x''` uses the new `y''`. -/
def invRoundF (x y k : Word) : Word × Word :=
  let y'' := ror64 (y ^^^ x) Config.beta
  let x'' := rol64 ((x ^^^ k) - y'') Config.alpha
  (x'', y'')

/-- `n` passes of the loop of `KEY_SCHEDULE` from round index `i`: record the current `k2`, then advance with `i` as the key
(40_round_engine.md R83). -/
def scheduleFrom : Nat → Nat → Word × Word → List Word
  | 0, _, _ => []
  | n + 1, i, kk => kk.2 :: scheduleFrom n (i + 1) (roundF kk.1 kk.2 (zext64 (BitVec.ofNat 5 i)))

/-- The loop records one round key a pass. -/
theorem scheduleFrom_length (n i : Nat) (kk : Word × Word) : (scheduleFrom n i kk).length = n := by
  induction n generalizing i kk with
  | zero => rfl
  | succ n ih => simp [scheduleFrom, ih]

/-- `KEY_SCHEDULE(k1, k2)`: 32 round keys (40_round_engine.md R83, 41_block_cipher.md R107). -/
def keySchedule (k1 k2 : Word) : Vector Word 32 :=
  ⟨(scheduleFrom Config.rounds 0 (k1, k2)).toArray, by simp [scheduleFrom_length, Config.rounds]⟩

/-- `ENCRYPT_F(S, p)`: the rounds in schedule order, index 0 first (41_block_cipher.md R100). -/
def encryptF (S : Vector Word 32) (p : Block) : Block :=
  let xy := S.toList.foldl (fun xy k => roundF xy.1 xy.2 k) (split p)
  join xy.1 xy.2

/-- `DECRYPT_F(S, c)`: the inverse rounds in reverse order, index 31 first (41_block_cipher.md R101). -/
def decryptF (S : Vector Word 32) (c : Block) : Block :=
  let xy := S.toList.foldr (fun k xy => invRoundF xy.1 xy.2 k) (split c)
  join xy.1 xy.2

/-! ## Operations on the state -/

/-- `respond(status, data)`: the command ends and its one response is pending (00_scope.md R12, 30_encoding.md R62). -/
def State.respond (kind : Kind) (status : StatusCode) (data : Block) (s : State) : State :=
  { s with phase := .holding kind { status := status, data := data } }

/-- `raise E()`: taking an error is `respond(E, 0)` with no state change; nothing is saved and there is no handler and no return
(00_scope.md R12, 60_exceptions.md R131, R133). -/
def State.raise (kind : Kind) (e : StatusCode) (s : State) : State := s.respond kind e 0

/-- The effect of a successful KEYSET: all 32 entries are written together and KEYED is set (41_block_cipher.md R104,
10_state.md R22, R23). -/
def State.loadSchedule (S : Vector Word 32) (s : State) : State := { s with rk := S, keyed := true }

/-- The kind of the outstanding command; none when BUSY = 0. -/
def Phase.outstanding : Phase → Option Kind
  | .idle => none
  | .running c _ => some (decodeKind c)
  | .holding k _ => some k

/-- A reset that aborts one of these leaves RK unchanged (70_reset_and_hazards.md R151). -/
def abortKeepsRoundKeys : Kind → Bool
  | .encrypt | .decrypt | .round | .invround => true
  | .keyset | .illegal => false

/-- RK after one cycle of reset: unchanged where 70_reset_and_hazards.md R151 says so, and otherwise unspecified (10_state.md R31,
70_reset_and_hazards.md R150): a free value (assumption 2). DESIGN CHOICE (assumption 2): where `rst` is held for more cycles,
RK is unchanged only in the first, which aborts the command; in the second no command is outstanding, and RK becomes free. -/
def State.roundKeysAfterReset (s : State) : Vector Word 32 :=
  if (s.phase.outstanding.map abortKeepsRoundKeys).getD false then s.rk else Config.freeRoundKeys s.freeCount

/-- A cycle with `rst` = 1: KEYED, BUSY and `rsp_valid` become 0, and the outstanding command and its response are dropped
(70_reset_and_hazards.md R150, R151). -/
def State.resetCycle (s : State) : State :=
  { s with rk := s.roundKeysAfterReset, keyed := false, phase := .idle, freeCount := s.freeCount + 1 }

/-- The response is consumed; BUSY = 0 from the next step (70_reset_and_hazards.md R153 steps 4 and 5). -/
def State.consume (s : State) : State := { s with phase := .idle }

/-- What `rsp_ready` does to a held response: the block holds it unchanged until `rsp_ready` = 1
(70_reset_and_hazards.md R153 step 4, R154). -/
def State.offerResponse (rspReady : Bool) (s : State) : State := if rspReady then s.consume else s

/-! ## The ports -/

/-- What the host drives in the present step. -/
def State.port (s : State) : PortIn := s.inputs.headD PortIn.low

/-- The present step's inputs are used up. -/
def State.popInput (s : State) : State := { s with inputs := s.inputs.tail }

/-- The host presents the command `c` for one step. -/
def PortIn.command (c : Command) : PortIn := { PortIn.low with cmdValid := true, cmd := c }

/-- The host accepts a response for one step. -/
def PortIn.consume : PortIn := { PortIn.low with rspReady := true }

/-- The host asserts `rst` for one step. -/
def PortIn.reset : PortIn := { PortIn.low with rst := true }

/-- `cmd_ready = NOT BUSY AND NOT rst` (30_encoding.md R66, 70_reset_and_hazards.md R153 step 1). -/
def State.cmdReady (s : State) : Bool := !s.busy && !s.port.rst

/-- `rsp_valid` (30_encoding.md R66). -/
def State.rspValid (s : State) : Bool := s.pending.isSome

/-- The output ports (30_encoding.md R66): `cmd_ready`, `rsp_valid`, `rsp_status` with `rsp_data`, and `status`. The spec
states no value for `rsp_status` and `rsp_data` while `rsp_valid` = 0: there is then no response to read. -/
structure PortOut where
  cmdReady : Bool
  rspValid : Bool
  rsp      : Option Response
  status   : BitVec 8
  deriving DecidableEq, Repr

/-- What the block drives in the present step. -/
def State.portOut (s : State) : PortOut :=
  { cmdReady := s.cmdReady, rspValid := s.rspValid, rsp := s.pending, status := s.statusPort }

end Sys2Proof.Machine
end

