-- ==== Sys2Proof/Machine/BlockCipher.lean ====
section
/-! DEFINITION. The commands of the block cipher: KEYSET, ENCRYPT and DECRYPT (41_block_cipher.md R104 to R106). The field K is
ignored (30_encoding.md R61). -/

namespace Sys2Proof.Machine

/-- KEYSET (41_block_cipher.md R104): every key is valid, keyed or not; DATA is 0. -/
def execKeyset (a : Block) (_k : Word) (s : State) : Host.Outcome State Fault Refusal :=
  .next ((s.loadSchedule (keySchedule (highHalf a) (lowHalf a))).respond .keyset statusOk 0)

/-- ENCRYPT (41_block_cipher.md R105): ERR_NOKEY when KEYED = 0. -/
def execEncrypt (a : Block) (_k : Word) (s : State) : Host.Outcome State Fault Refusal :=
  if s.keyed then .next (s.respond .encrypt statusOk (encryptF s.rk a))
  else .next (s.raise .encrypt statusErrNoKey)

/-- DECRYPT (41_block_cipher.md R106): ERR_NOKEY when KEYED = 0. -/
def execDecrypt (a : Block) (_k : Word) (s : State) : Host.Outcome State Fault Refusal :=
  if s.keyed then .next (s.respond .decrypt statusOk (decryptF s.rk a))
  else .next (s.raise .decrypt statusErrNoKey)

end Sys2Proof.Machine
end

