-- ==== Sys2Proof/Machine/RoundEngine.lean ====
section
/-! DEFINITION. The commands that expose the round functions: ROUND and INVROUND (40_round_engine.md R85, R86). -/

namespace Sys2Proof.Machine

/-- ROUND (40_round_engine.md R85): it reads and writes no state, keyed or not (R87). -/
def execRound (a : Block) (k : Word) (s : State) : Host.Outcome State Fault Refusal :=
  let xy := roundF (highHalf a) (lowHalf a) k
  .next (s.respond .round statusOk (join xy.1 xy.2))

/-- INVROUND (40_round_engine.md R86): it reads and writes no state, keyed or not (R87). -/
def execInvround (a : Block) (k : Word) (s : State) : Host.Outcome State Fault Refusal :=
  let xy := invRoundF (highHalf a) (lowHalf a) k
  .next (s.respond .invround statusOk (join xy.1 xy.2))

end Sys2Proof.Machine
end

