-- ==== Sys2Proof/Machine/Dispatch.lean ====
section
/-! DEFINITION. One arm per instruction: each calls its meaning (60_exceptions.md R134). -/

namespace Sys2Proof.Machine

def exec (i : Instr) (s : State) : Host.Outcome State Fault Refusal :=
  match i with
  | .keyset a k => Sys2Proof.Machine.execKeyset a k s
  | .encrypt a k => Sys2Proof.Machine.execEncrypt a k s
  | .decrypt a k => Sys2Proof.Machine.execDecrypt a k s
  | .round a k => Sys2Proof.Machine.execRound a k s
  | .invround a k => Sys2Proof.Machine.execInvround a k s

end Sys2Proof.Machine
end

