-- ==== Sys2Proof/Machine/Transaction.lean ====
section
/-! DEFINITION. The transaction level: one accepted command is one atomic step (60_exceptions.md R134, 20_memory.md R45). The
cycles a command takes are no steps of their own here (assumption 3); Machine/Signal.lean counts them. -/

namespace Sys2Proof.Machine

/-- The completion of a command: `STEP` of 60_exceptions.md R134. Decoding comes first (R132); an illegal command is answered
ERR_ILLEGAL with data 0 and changes no state (30_encoding.md R60). -/
def runCommand (c : Command) (s : State) : Host.Outcome State Fault Refusal :=
  match decode c with
  | .ok i => exec i s
  | .error _ => .next (s.raise .illegal statusErrIllegal)

/-- One transaction-level step: `rst` comes before everything (60_exceptions.md R132); an idle block runs the command the host
presents, if there is one; a command accepted at the signal level completes; a held response waits for `rsp_ready`
(70_reset_and_hazards.md R153). -/
def transactionStep (s : State) : Host.Outcome State Fault Refusal :=
  if s.port.rst then .next s.popInput.resetCycle
  else
    match s.phase with
    | .idle => if s.port.cmdValid then runCommand s.port.cmd s.popInput else .next s.popInput
    | .running c _ => runCommand c s.popInput
    | .holding _ _ => .next (s.popInput.offerResponse s.port.rspReady)

/-- The state in which the next step runs the command `c`: the block is ready, and the host presents `c`. -/
def State.presenting (c : Command) (s : State) : State :=
  { s with phase := .idle, inputs := PortIn.command c :: s.inputs }

/-- The responses to a sequence of commands, each consumed before the next is presented: `STEP` folded over the commands
(60_exceptions.md R134, 10_state.md R32). -/
def responses : List Command → State → List Response
  | [], _ => []
  | c :: cs, s =>
    match runCommand c s with
    | .next t => t.pending.toList ++ responses cs t.consume
    | .fault _ => []
    | .refused _ => []

end Sys2Proof.Machine
end

