-- ==== Sys2Proof/Machine/Step.lean ====
section
/-! DEFINITION. The step of the machine, and how an instruction of the opcode table comes to be its next one. -/

namespace Sys2Proof.Machine

/-- One step: `transactionStep`. -/
def step (s : State) : Host.Outcome State Fault Refusal := transactionStep s

/-- `n` steps: a run, which is the steps folded from a state (60_exceptions.md R134). -/
def steps : Nat → State → Host.Outcome State Fault Refusal
  | 0, s => .next s
  | n + 1, s =>
    match step s with
    | .next t => steps n t
    | .fault f => .fault f
    | .refused r => .refused r

/-- The state `s` with the table's word `w` on the command port in the next step, and the block ready to accept it. -/
def State.withFetchWord (s : State) (nbits w : Nat) : State := s.presenting (Command.ofWord (tableWord nbits w))

end Sys2Proof.Machine
end

