-- ==== Sys2Proof/Machine/Assembler.lean ====
section
/-! DEFINITION. The assembly language of command listings (30_encoding.md R63) and its pseudo-instructions (R64). It is notation,
not hardware: a line stands for one command. -/

namespace Sys2Proof.Machine

/-- A line of a listing. An operand is a number, or absent where the line omits it (30_encoding.md R63). -/
inductive AsmLine where
  | keyset (a k : Option Nat)
  | encrypt (a k : Option Nat)
  | decrypt (a k : Option Nat)
  | round (a k : Option Nat)
  | invround (a k : Option Nat)
  /-- `.cmd`: any raw command, legal or not. -/
  | cmd (op : Nat) (a k : Option Nat)
  | ecbEncrypt (b : Option Nat)
  | ecbDecrypt (b : Option Nat)
  | new (key : Option Nat)
  | roundxy (x y k : Nat)
  | invroundxy (x y k : Nat)
  deriving DecidableEq, Repr

/-- A literal fits its field of `bits` bits; an absent one does (it assembles as 0). -/
def literalFits (bits : Nat) (v : Option Nat) : Bool := v.getD 0 < 2 ^ bits

/-- Every literal of the line fits its field (30_encoding.md R63). -/
def AsmLine.wellFormed : AsmLine → Bool
  | .keyset a k | .encrypt a k | .decrypt a k | .round a k | .invround a k => literalFits 128 a && literalFits 64 k
  | .cmd op a k => literalFits 8 (some op) && literalFits 128 a && literalFits 64 k
  | .ecbEncrypt b | .ecbDecrypt b | .new b => literalFits 128 b
  | .roundxy x y k | .invroundxy x y k => literalFits 64 (some x) && literalFits 64 (some y) && literalFits 64 (some k)

/-- The expansion of a pseudo-instruction to the one command it stands for (30_encoding.md R64); a command stands for itself. -/
def AsmLine.expand : AsmLine → AsmLine
  | .ecbEncrypt b => .encrypt b none
  | .ecbDecrypt b => .decrypt b none
  | .new key => .keyset key none
  | .roundxy x y k => .round (some (x * 2 ^ 64 + y)) (some k)
  | .invroundxy x y k => .invround (some (x * 2 ^ 64 + y)) (some k)
  | .keyset a k => .keyset a k
  | .encrypt a k => .encrypt a k
  | .decrypt a k => .decrypt a k
  | .round a k => .round a k
  | .invround a k => .invround a k
  | .cmd op a k => .cmd op a k

/-- The fields of a command; an omitted operand is 0 (30_encoding.md R63). -/
def rawCommand (op : Nat) (a k : Option Nat) : Command :=
  { op := BitVec.ofNat 8 op, a := BitVec.ofNat 128 (a.getD 0), k := BitVec.ofNat 64 (k.getD 0) }

/-- The command a line assembles to (30_encoding.md R57, R63, R64). -/
def AsmLine.assemble : AsmLine → Command
  | .keyset a k => rawCommand 0x01 a k
  | .encrypt a k => rawCommand 0x02 a k
  | .decrypt a k => rawCommand 0x03 a k
  | .round a k => rawCommand 0x04 a k
  | .invround a k => rawCommand 0x05 a k
  | .cmd op a k => rawCommand op a k
  | .ecbEncrypt b => rawCommand 0x02 b none
  | .ecbDecrypt b => rawCommand 0x03 b none
  | .new key => rawCommand 0x01 key none
  | .roundxy x y k => rawCommand 0x04 (some (x * 2 ^ 64 + y)) (some k)
  | .invroundxy x y k => rawCommand 0x05 (some (x * 2 ^ 64 + y)) (some k)

/-! ## Reading a line of text -/

/-- The value of a hexadecimal digit. -/
def hexDigitValue (c : Char) : Option Nat :=
  if '0'.toNat ≤ c.toNat ∧ c.toNat ≤ '9'.toNat then some (c.toNat - '0'.toNat)
  else if 'a'.toNat ≤ c.toNat ∧ c.toNat ≤ 'f'.toNat then some (c.toNat - 'a'.toNat + 10)
  else if 'A'.toNat ≤ c.toNat ∧ c.toNat ≤ 'F'.toNat then some (c.toNat - 'A'.toNat + 10)
  else none

/-- The digits of a hex literal, most significant first; `_` separates digits (00_scope.md R6, 30_encoding.md R63). `acc` is the
value read so far, none before the first digit. -/
def readHexDigits (acc : Option Nat) : List Char → Option Nat
  | [] => acc
  | c :: cs =>
    if c = '_' then readHexDigits acc cs
    else
      match hexDigitValue c with
      | some d => readHexDigits (some (acc.getD 0 * 16 + d)) cs
      | none => none

/-- A hex literal, with or without `0x` (30_encoding.md R63). -/
def readHex : List Char → Option Nat
  | '0' :: 'x' :: ds => readHexDigits none ds
  | ds => readHexDigits none ds

/-- The words of a line, separated by spaces and commas; `cur` is the word being read, last character first. -/
def splitWords (cur : List Char) : List Char → List (List Char)
  | [] => if cur.isEmpty then [] else [cur.reverse]
  | c :: cs =>
    if c = ' ' ∨ c = ',' then (if cur.isEmpty then splitWords [] cs else cur.reverse :: splitWords [] cs)
    else splitWords (c :: cur) cs

/-- The literal of the operand written `<label><literal>`, the label `A=` for example. -/
def readOperand (label : String) (w : List Char) : Option Nat :=
  if label.toList.isPrefixOf w then readHex (w.drop label.toList.length) else none

/-- The operands `A=` and `K=`, in this order, each of which may be omitted (30_encoding.md R63). -/
def readAK : List (List Char) → Option (Option Nat × Option Nat)
  | [] => some (none, none)
  | [w] =>
    match readOperand "A=" w with
    | some a => some (some a, none)
    | none => (readOperand "K=" w).map fun k => (none, some k)
  | [w, w'] =>
    match readOperand "A=" w, readOperand "K=" w' with
    | some a, some k => some (some a, some k)
    | _, _ => none
  | _ => none

/-- The one operand `A=` of a pseudo-instruction (30_encoding.md R64). -/
def readA : List (List Char) → Option (Option Nat)
  | [] => some none
  | [w] => (readOperand "A=" w).map some
  | _ => none

/-- The three operands `x, y, k` of ROUNDXY and INVROUNDXY (30_encoding.md R64). -/
def readXYK : List (List Char) → Option (Nat × Nat × Nat)
  | [x, y, k] =>
    match readHex x, readHex y, readHex k with
    | some x, some y, some k => some (x, y, k)
    | _, _, _ => none
  | _ => none

/-- A line of text (30_encoding.md R63, R64); none where it is no line of the language. -/
def readLine (text : List Char) : Option AsmLine :=
  match splitWords [] text with
  | [] => none
  | m :: ops =>
    if m = "KEYSET".toList then (readAK ops).map fun o => .keyset o.1 o.2
    else if m = "ENCRYPT".toList then (readAK ops).map fun o => .encrypt o.1 o.2
    else if m = "DECRYPT".toList then (readAK ops).map fun o => .decrypt o.1 o.2
    else if m = "ROUND".toList then (readAK ops).map fun o => .round o.1 o.2
    else if m = "INVROUND".toList then (readAK ops).map fun o => .invround o.1 o.2
    else if m = ".cmd".toList then
      match ops with
      | [] => none
      | w :: rest =>
        match readOperand "OP=" w, readAK rest with
        | some op, some o => some (.cmd op o.1 o.2)
        | _, _ => none
    else if m = "ECB.ENCRYPT".toList then (readA ops).map .ecbEncrypt
    else if m = "ECB.DECRYPT".toList then (readA ops).map .ecbDecrypt
    else if m = "NEW".toList then (readA ops).map .new
    else if m = "ROUNDXY".toList then (readXYK ops).map fun o => .roundxy o.1 o.2.1 o.2.2
    else if m = "INVROUNDXY".toList then (readXYK ops).map fun o => .invroundxy o.1 o.2.1 o.2.2
    else none

/-- The command a line of text assembles to; none where it is no line of the language or a literal does not fit. -/
def assembleLine (text : List Char) : Option Command :=
  match readLine text with
  | some l => if l.wellFormed then some l.assemble else none
  | none => none

/-! ## Writing a command -/

/-- The lower-case hexadecimal digit of a value below 16. -/
def hexDigit (d : Nat) : Char := Char.ofNat (if d < 10 then '0'.toNat + d else 'a'.toNat + (d - 10))

/-- The low `n` hexadecimal digits of `v`, most significant first. -/
def hexDigits : Nat → Nat → List Char
  | 0, _ => []
  | n + 1, v => hexDigits n (v / 16) ++ [hexDigit (v % 16)]

/-- The encoding of a listing line, `OP A K` in hex (30_encoding.md R63). -/
def listing (c : Command) : List Char :=
  hexDigits 2 c.op.toNat ++ ' ' :: hexDigits 32 c.a.toNat ++ ' ' :: hexDigits 16 c.k.toNat

end Sys2Proof.Machine
end

