-- ==== Sys2Proof/Machine/Signal.lean ====
section
/-! DEFINITION. The signal level: one clock cycle of the block (70_reset_and_hazards.md R150 to R158), over the same state as
the transaction level, which it refines (92_eei_decisions.md D1). -/

namespace Sys2Proof.Machine

/-- The kind whose latency a command takes: that of the decoded command, and `LAT_ILLEGAL` for an illegal command and for an
ENCRYPT or DECRYPT answered with ERR_NOKEY (70_reset_and_hazards.md R153 step 3, R155). -/
def latencyKind (c : Command) (s : State) : Kind :=
  match decodeKind c with
  | .keyset => .keyset
  | .encrypt => if s.keyed then .encrypt else .illegal
  | .decrypt => if s.keyed then .decrypt else .illegal
  | .round => .round
  | .invround => .invround
  | .illegal => .illegal

/-- The latency of a command accepted in the state `s` (70_reset_and_hazards.md R155). -/
def latencyOf (c : Command) (s : State) : Nat := Config.latency (latencyKind c s)

/-- A command with `wait` more cycles to run: at 0 it completes, and its response is valid in the cycle after this one
(70_reset_and_hazards.md R153 step 3). -/
def progress (c : Command) (wait : Nat) (s : State) : Host.Outcome State Fault Refusal :=
  match wait with
  | 0 => runCommand c s
  | w + 1 => .next { s with phase := .running c (w + 1) }

/-- One clock cycle (70_reset_and_hazards.md R150, R153). A command accepted in this cycle completes at the end of the
`latencyOf`-th cycle counted from this one, so that `rsp_valid` = 1 exactly that many cycles after acceptance. -/
def cycle (s : State) : Host.Outcome State Fault Refusal :=
  if s.port.rst then .next s.popInput.resetCycle
  else
    match s.phase with
    | .idle =>
      if s.port.cmdValid then progress s.port.cmd (latencyOf s.port.cmd s - 1) s.popInput else .next s.popInput
    | .running c w => progress c (w - 1) s.popInput
    | .holding _ _ => .next (s.popInput.offerResponse s.port.rspReady)

/-- `n` clock cycles. -/
def cycles : Nat → State → Host.Outcome State Fault Refusal
  | 0, s => .next s
  | n + 1, s =>
    match cycle s with
    | .next t => cycles n t
    | .fault f => .fault f
    | .refused r => .refused r

end Sys2Proof.Machine
end

