-- ==== Sys2Proof/Safety.lean ====
section
/-! DEFINITION. What is true of the block in every reachable state, in the words the statements use. The block has no fault
(60_exceptions.md R130): a run is safe when its state keeps these. -/

namespace Sys2Proof.Machine

/-- KEYED = 1 means that RK holds the schedule of some key (10_state.md R23). -/
def State.ScheduleLoaded (s : State) : Prop := s.keyed = true → ∃ k1 k2 : Word, s.rk = keySchedule k1 k2

/-- What a response to a command of the kind `kind` can be, where the block's KEYED flag is `keyed` while it is held
(30_encoding.md R62, 60_exceptions.md R131). -/
structure Response.Legal (kind : Kind) (keyed : Bool) (r : Response) : Prop where
  neverReserved   : r.status ≠ statusReserved
  errorHasNoData  : r.status ≠ statusOk → r.data = 0
  keysetHasNoData : kind = .keyset → r.data = 0
  illegalIff      : r.status = statusErrIllegal ↔ kind = .illegal
  noKeyIff        : r.status = statusErrNoKey ↔ (kind = .encrypt ∨ kind = .decrypt) ∧ keyed = false
  keysetKeyed     : kind = .keyset → keyed = true

/-- A held response is a legal one. -/
def State.ResponseLegal (s : State) : Prop :=
  ∀ kind r, s.phase = .holding kind r → r.Legal kind s.keyed

/-- A running command has at least one cycle to go, and fewer than its latency (70_reset_and_hazards.md R153, R158). -/
def State.WaitBounded (s : State) : Prop :=
  ∀ c w, s.phase = .running c w → 0 < w ∧ w < latencyOf c s

/-- The invariant of both levels. -/
structure State.Inv (s : State) : Prop where
  schedule : s.ScheduleLoaded
  response : s.ResponseLegal
  wait     : s.WaitBounded

end Sys2Proof.Machine
end

