-- ==== Sys2Proof/Certificates/Slice0/Obligations.lean ====
section
/-! DEFINITION. The statements about the model, from the numbered rules of spec/. The block has no memory, no flags and no program
counter (20_memory.md R40, 10_state.md R28, R29): where an equation gives the next state as `{ s with … }`, every register it
does not name is unchanged, and that is the frame. A statement whose docstring names an assumption rests on the model's own
choice recorded there. -/

open Sys2Proof Sys2Proof.Machine

/-! ## Encoding -/

/-- 30_encoding.md R55, R57, R65: decoding the word of an instruction gives the instruction back, and a word that decodes is the
word of the instruction it decodes to. -/
def Obligations.DecodeEncodeAgree : Prop :=
  (∀ i : Instr, decodeWord (encodeWord i) = .ok i) ∧
  (∀ (w : BitVec 200) (i : Instr), decodeWord w = .ok i → encodeWord i = w)

/-- 30_encoding.md R55, R56: the fields of the command word and their places, that the word is `OP || A || K`, and that RSV is
zero in every command that decodes. -/
def Obligations.CommandWordFields : Prop :=
  (∀ w : BitVec 200,
    rsvOf (Command.ofWord w).op = w.extractLsb' 196 4 ∧ funcOf (Command.ofWord w).op = w.extractLsb' 192 4 ∧
    highHalf (Command.ofWord w).a = w.extractLsb' 128 64 ∧ lowHalf (Command.ofWord w).a = w.extractLsb' 64 64 ∧
    (Command.ofWord w).k = w.extractLsb' 0 64 ∧ (Command.ofWord w).toWord = w) ∧
  (∀ c : Command, Command.ofWord c.toWord = c ∧
    c.toWord.toNat = c.op.toNat * 2 ^ 192 + c.a.toNat * 2 ^ 64 + c.k.toNat) ∧
  (∀ (c : Command) (i : Instr), decode c = .ok i → rsvOf c.op = 0b0000#4)

/-- Command words written out from 30_encoding.md R55 and R57, as 95_test_vectors.md lists them (V46, V50 to V59, P5). -/
def Obligations.WrittenWordsDecode : Prop :=
  decodeTableWord 200 0x01_0f0e0d0c0b0a09080706050403020100_0123456789abcdef =
    some (.keyset 0x0f0e0d0c0b0a09080706050403020100 0x0123456789abcdef) ∧
  decodeTableWord 200 0x02_6c617669757165207469206564616d20_ffffffffffffffff =
    some (.encrypt 0x6c617669757165207469206564616d20 0xffffffffffffffff) ∧
  decodeTableWord 200 0x03_a65d9851797832657860fedf5c570d18_0000000000000000 =
    some (.decrypt 0xa65d9851797832657860fedf5c570d18 0) ∧
  decodeTableWord 200 0x04_93d384dfced4df85309a87f4eddfb686_37253b31171d0309 =
    some (.round 0x93d384dfced4df85309a87f4eddfb686 0x37253b31171d0309) ∧
  decodeTableWord 200 0x05_a65d9851797832657860fedf5c570d18_2199c870db8ec93f =
    some (.invround 0xa65d9851797832657860fedf5c570d18 0x2199c870db8ec93f) ∧
  decodeTableWord 200 0x00_00000000000000000000000000000000_0000000000000000 = none ∧
  decodeTableWord 200 0x06_6c617669757165207469206564616d20_0000000000000001 = none ∧
  decodeTableWord 200 0x12_6c617669757165207469206564616d20_0000000000000000 = none ∧
  decodeTableWord 200 0xf1_0f0e0d0c0b0a09080706050403020100_0000000000000000 = none

/-- 30_encoding.md R65: DECODE looks at OP only, and every OP decodes to exactly one of the five commands or ILLEGAL. -/
def Obligations.DecodeByOpcodeByte : Prop :=
  ∀ c : Command,
    (c.op = 0x01 → decodeKind c = .keyset) ∧ (c.op = 0x02 → decodeKind c = .encrypt) ∧
    (c.op = 0x03 → decodeKind c = .decrypt) ∧ (c.op = 0x04 → decodeKind c = .round) ∧
    (c.op = 0x05 → decodeKind c = .invround) ∧
    (c.op ≠ 0x01 → c.op ≠ 0x02 → c.op ≠ 0x03 → c.op ≠ 0x04 → c.op ≠ 0x05 → decodeKind c = .illegal)

/-- 30_encoding.md R57, R60: a command is well formed exactly when the decoder accepts it. -/
def Obligations.WellFormedIffDecodes : Prop :=
  ∀ c : Command, c.wellFormed = true ↔ ∃ i, decode c = .ok i

/-- 30_encoding.md R60: an OP with `RSV ≠ 0000` (0x10 to 0xFF), or 0x00 or 0x06 to 0x0F, is illegal; an idle block accepts the
command and answers ERR_ILLEGAL with data 0, whatever A and K hold, and no state changes; there are 251 such OP values. -/
def Obligations.IllegalCommandAnswer : Prop :=
  (∀ c : Command, (decode c = .error .reservedBits ↔ 0x10 ≤ c.op.toNat) ∧
    (decode c = .error .unassignedFunc ↔ c.op.toNat = 0x00 ∨ (0x06 ≤ c.op.toNat ∧ c.op.toNat ≤ 0x0f))) ∧
  (∀ (c : Command) (s : State), decodeKind c = .illegal → s.phase = .idle → s.port = PortIn.command c →
    step s = .next { s with phase := .holding .illegal { status := 0b01#2, data := 0 }, inputs := s.inputs.tail }) ∧
  ((List.range 256).filter fun n => decodeKind { op := BitVec.ofNat 8 n, a := 0, k := 0 } == .illegal).length = 251

/-- 30_encoding.md R61: K is ignored by KEYSET, ENCRYPT and DECRYPT; A and K are ignored by an illegal command and by an ENCRYPT
or DECRYPT that answers ERR_NOKEY. -/
def Obligations.IgnoredFieldsHaveNoEffect : Prop :=
  ∀ (op : BitVec 8) (a a' : Block) (k k' : Word) (s : State),
    (op = 0x01 ∨ op = 0x02 ∨ op = 0x03 →
      runCommand { op := op, a := a, k := k } s = runCommand { op := op, a := a, k := k' } s) ∧
    (op = 0x00 ∨ 0x06 ≤ op.toNat →
      runCommand { op := op, a := a, k := k } s = runCommand { op := op, a := a', k := k' } s) ∧
    ((op = 0x02 ∨ op = 0x03) → s.keyed = false →
      runCommand { op := op, a := a, k := k } s = runCommand { op := op, a := a', k := k' } s)

/-! ## Words, halves and rounds -/

/-- 00_scope.md R10: the rotations are the circular rotations of the library. -/
def Obligations.RotationsAreCircular : Prop :=
  ∀ (v : Word) (r : Nat), 0 < r → r < 64 → ror64 v r = v.rotateRight r ∧ rol64 v r = v.rotateLeft r

/-- 00_scope.md R11: SPLIT gives `v >> 64` and `v AND (2^64 - 1)`, JOIN gives `(hi << 64) OR lo`, and each undoes the other. -/
def Obligations.SplitJoinInverse : Prop :=
  (∀ v : Block, (split v).1.toNat = v.toNat / 2 ^ 64 ∧ (split v).2.toNat = v.toNat % 2 ^ 64 ∧
    join (split v).1 (split v).2 = v) ∧
  (∀ hi lo : Word, (join hi lo).toNat = hi.toNat * 2 ^ 64 + lo.toNat ∧ split (join hi lo) = (hi, lo))

/-- 40_round_engine.md R80: the forward round in integer arithmetic, the carry discarded; `y'` uses the new `x'`. -/
def Obligations.RoundArithmetic : Prop :=
  ∀ x y k : Word,
    (roundF x y k).1 = BitVec.ofNat 64 (((x.rotateRight 8).toNat + y.toNat) % 2 ^ 64) ^^^ k ∧
    (roundF x y k).2 = y.rotateLeft 3 ^^^ (roundF x y k).1

/-- 40_round_engine.md R81: the inverse round in integer arithmetic, the borrow discarded; `x''` uses the new `y''`. -/
def Obligations.InverseRoundArithmetic : Prop :=
  ∀ x y k : Word,
    (invRoundF x y k).2 = (y ^^^ x).rotateRight 3 ∧
    (invRoundF x y k).1 =
      (BitVec.ofNat 64 (((x ^^^ k).toNat + 2 ^ 64 - (invRoundF x y k).2.toNat) % 2 ^ 64)).rotateLeft 8

/-- 40_round_engine.md R82: the round functions are mutual inverses for every `x`, `y` and `k`. -/
def Obligations.RoundsAreMutualInverses : Prop :=
  ∀ x y k : Word,
    invRoundF (roundF x y k).1 (roundF x y k).2 k = (x, y) ∧
    roundF (invRoundF x y k).1 (invRoundF x y k).2 k = (x, y)

/-- 40_round_engine.md R83: let `kk i` be the working pair before pass `i`, which starts as `(k1, k2)` and is advanced by the
forward round with the round index as its key; then round key `i` is the current `k2` of pass `i`, and the first is `k2`. -/
def Obligations.KeyScheduleRecurrence : Prop :=
  ∀ (k1 k2 : Word) (kk : Nat → Word × Word), kk 0 = (k1, k2) →
    (∀ i, i < 32 → kk (i + 1) = roundF (kk i).1 (kk i).2 (BitVec.ofNat 64 i)) →
    (∀ (i : Nat) (h : i < 32), (keySchedule k1 k2)[i] = (kk i).2) ∧ (keySchedule k1 k2)[0] = k2

/-- 10_state.md R25: the schedule determines the key: `RK[0]` is its low half, and its high half follows from `RK[0]` and
`RK[1]`. -/
def Obligations.KeyRecoveredFromSchedule : Prop :=
  ∀ k1 k2 : Word,
    (keySchedule k1 k2)[0] = k2 ∧
    rol64 (((keySchedule k1 k2)[1] ^^^ rol64 (keySchedule k1 k2)[0] 3) - (keySchedule k1 k2)[0]) 8 = k1

/-! ## The block pipelines -/

/-- 41_block_cipher.md R100: 32 forward rounds in schedule order, each fed with the pair the one before it left. -/
def Obligations.EncryptIsThirtyTwoRounds : Prop :=
  ∀ (S : Vector Word 32) (p : Block) (xy : Nat → Word × Word),
    xy 0 = (p.extractLsb' 64 64, p.extractLsb' 0 64) →
    (∀ (i : Nat) (h : i < 32), xy (i + 1) = roundF (xy i).1 (xy i).2 S[i]) →
    encryptF S p = (xy 32).1 ++ (xy 32).2

/-- 41_block_cipher.md R101: 32 inverse rounds, index 31 first and index 0 last. -/
def Obligations.DecryptIsThirtyTwoInverseRounds : Prop :=
  ∀ (S : Vector Word 32) (c : Block) (xy : Nat → Word × Word),
    xy 32 = (c.extractLsb' 64 64, c.extractLsb' 0 64) →
    (∀ (i : Nat) (h : i < 32), xy i = invRoundF (xy (i + 1)).1 (xy (i + 1)).2 S[i]) →
    decryptF S c = (xy 0).1 ++ (xy 0).2

/-- 41_block_cipher.md R102: for every 32 words, whether or not they are the schedule of a key, the pipelines are mutual
inverses. -/
def Obligations.CipherIsPermutation : Prop :=
  ∀ S : Vector Word 32, (∀ p : Block, decryptF S (encryptF S p) = p) ∧ (∀ c : Block, encryptF S (decryptF S c) = c)

/-! ## What each command does -/

/-- 41_block_cipher.md R104: KEYSET completes for every key in every state: the whole file is the key's schedule, KEYED is 1 and
the answer is OK with data 0; its opcode; `RK[0]` is the key's low half; a second KEYSET with the key leaves the same state; the
rule's example. -/
def Obligations.KeysetResult : Prop :=
  (∀ (a : Block) (k : Word) (s : State),
    exec (.keyset a k) s = .next { s with
      rk := keySchedule (a.extractLsb' 64 64) (a.extractLsb' 0 64)
      keyed := true
      phase := .holding .keyset { status := 0b00#2, data := 0 } } ∧
    opcodeOf (.keyset a k) = 0x01#8) ∧
  (∀ (a : Block) (k k' : Word) (s t : State), exec (.keyset a k) s = .next t →
    t.rk[0] = a.extractLsb' 0 64 ∧ exec (.keyset a k') t = .next t) ∧
  (keySchedule 0x0f0e0d0c0b0a0908 0x0706050403020100)[0] = 0x0706050403020100 ∧
  (keySchedule 0x0f0e0d0c0b0a0908 0x0706050403020100)[31] = 0x2199c870db8ec93f

/-- 40_round_engine.md R85: ROUND completes for every operand in every state: the answer is OK with the forward round of A's
halves under K, and no register changes; its opcode, its corner cases and its example. -/
def Obligations.RoundResult : Prop :=
  (∀ (a : Block) (k : Word) (s : State),
    exec (.round a k) s = .next { s with
      phase := .holding .round
        { status := 0b00#2
          data := (roundF (a.extractLsb' 64 64) (a.extractLsb' 0 64) k).1 ++
            (roundF (a.extractLsb' 64 64) (a.extractLsb' 0 64) k).2 } } ∧
    opcodeOf (.round a k) = 0x04#8) ∧
  roundF 0 0 0 = (0, 0) ∧ roundF 0x80 0x8000000000000000 0 = (0, 4) ∧ roundF 0 1 0 = (1, 9)

/-- 40_round_engine.md R86: INVROUND completes for every operand in every state: the answer is OK with the inverse round of A's
halves under K, and no register changes; its opcode; the DATA of a ROUND gives back that ROUND's A; two borrows and the
example. -/
def Obligations.InvroundResult : Prop :=
  (∀ (a : Block) (k : Word) (s : State),
    exec (.invround a k) s = .next { s with
      phase := .holding .invround
        { status := 0b00#2
          data := (invRoundF (a.extractLsb' 64 64) (a.extractLsb' 0 64) k).1 ++
            (invRoundF (a.extractLsb' 64 64) (a.extractLsb' 0 64) k).2 } } ∧
    opcodeOf (.invround a k) = 0x05#8) ∧
  (∀ (a d : Block) (k : Word) (s t u : State), exec (.round a k) s = .next t →
    t.pending = some { status := 0b00#2, data := d } →
    exec (.invround d k) u = .next { u with phase := .holding .invround { status := 0b00#2, data := a } }) ∧
  invRoundF 0 1 0 = (0xe0, 0x2000000000000000) ∧ invRoundF 1 0 0 = (0x1e0, 0x2000000000000000) ∧
  invRoundF 1 9 0 = (0, 1)

/-- 41_block_cipher.md R105: ENCRYPT with KEYED = 1 completes for every plaintext with OK and the ciphertext, and no register
changes; with KEYED = 0 it answers ERR_NOKEY with data 0; its opcode, its corner cases and its example. -/
def Obligations.EncryptResult : Prop :=
  (∀ (a : Block) (k : Word) (s : State), opcodeOf (.encrypt a k) = 0x02#8 ∧
    (s.keyed = true → exec (.encrypt a k) s = .next { s with
      phase := .holding .encrypt { status := 0b00#2, data := encryptF s.rk a } }) ∧
    (s.keyed = false → exec (.encrypt a k) s = .next { s with
      phase := .holding .encrypt { status := 0b10#2, data := 0 } })) ∧
  encryptF (keySchedule 0x0f0e0d0c0b0a0908 0x0706050403020100) 0x6c617669757165207469206564616d20 =
    0xa65d9851797832657860fedf5c570d18 ∧
  encryptF (keySchedule 0 0) 0 = 0x665c02fddcf38d76208ed74c037f0a6d ∧
  encryptF (keySchedule 0xffffffffffffffff 0xffffffffffffffff) 0xffffffffffffffffffffffffffffffff =
    0x3f35e88fba985eb38d3b9d66dc74d36a

/-- 41_block_cipher.md R106: DECRYPT with KEYED = 1 completes for every ciphertext with OK and the plaintext, and no register
changes; with KEYED = 0 it answers ERR_NOKEY with data 0; its opcode; ENCRYPT then DECRYPT, and DECRYPT then ENCRYPT, return the
input; the rule's example. -/
def Obligations.DecryptResult : Prop :=
  (∀ (a : Block) (k : Word) (s : State), opcodeOf (.decrypt a k) = 0x03#8 ∧
    (s.keyed = true → exec (.decrypt a k) s = .next { s with
      phase := .holding .decrypt { status := 0b00#2, data := decryptF s.rk a } }) ∧
    (s.keyed = false → exec (.decrypt a k) s = .next { s with
      phase := .holding .decrypt { status := 0b10#2, data := 0 } })) ∧
  (∀ (a d : Block) (k k' : Word) (s t : State), s.keyed = true →
    (exec (.encrypt a k) s = .next t → t.pending = some { status := 0b00#2, data := d } →
      exec (.decrypt d k') t = .next { t with phase := .holding .decrypt { status := 0b00#2, data := a } }) ∧
    (exec (.decrypt a k) s = .next t → t.pending = some { status := 0b00#2, data := d } →
      exec (.encrypt d k') t = .next { t with phase := .holding .encrypt { status := 0b00#2, data := a } })) ∧
  decryptF (keySchedule 0x0f0e0d0c0b0a0908 0x0706050403020100) 0xa65d9851797832657860fedf5c570d18 =
    0x6c617669757165207469206564616d20

/-- 40_round_engine.md R87: the response of ROUND and of INVROUND is the same in every state, and neither changes any register,
keyed or not. -/
def Obligations.RoundCommandsArePure : Prop :=
  ∀ (i : Instr), i.kind = .round ∨ i.kind = .invround → ∃ r : Response, ∀ s : State,
    exec i s = .next { s with phase := .holding i.kind r } ∧ r.status = 0b00#2

/-- 60_exceptions.md R130: every operation completes with OK, for every input; ENCRYPT and DECRYPT when KEYED = 1, the others in
any state. -/
def Obligations.EveryOperationCompletesOk : Prop :=
  ∀ (i : Instr) (s : State), (i.kind = .encrypt ∨ i.kind = .decrypt → s.keyed = true) →
    ∃ (t : State) (r : Response), exec i s = .next t ∧ t.pending = some r ∧ r.status = 0b00#2

/-- 41_block_cipher.md R108: on a keyed block, 32 ROUND commands with `K = RK[0], …, RK[31]`, each fed with the DATA of the one
before it, end with the DATA of ENCRYPT; 32 INVROUND commands with `K = RK[31], …, RK[0]` end with the DATA of DECRYPT. The
states `σ i` in which the commands run are any states at all. -/
def Obligations.EncryptEqualsRoundCommands : Prop :=
  ∀ (s : State) (p : Block) (k : Word) (σ : Nat → State) (a : Nat → Block), s.keyed = true → a 0 = p →
    ((∀ (i : Nat) (h : i < 32), ∃ t, exec (.round (a i) s.rk[i]) (σ i) = .next t ∧
        t.pending = some { status := 0b00#2, data := a (i + 1) }) →
      ∃ t, exec (.encrypt p k) s = .next t ∧ t.pending = some { status := 0b00#2, data := a 32 }) ∧
    ((∀ (i : Nat) (h : i < 32), ∃ t, exec (.invround (a i) s.rk[31 - i]) (σ i) = .next t ∧
        t.pending = some { status := 0b00#2, data := a (i + 1) }) →
      ∃ t, exec (.decrypt p k) s = .next t ∧ t.pending = some { status := 0b00#2, data := a 32 })

/-- 40_round_engine.md R88: 32 ROUND commands from `A = key` with `K = 0, …, 31`, each fed with the DATA of the one before it,
give the schedule: the low half of A before command `i` is `RK[i]` as KEYSET writes it. -/
def Obligations.HostDrivenKeySchedule : Prop :=
  ∀ (key : Block) (kf : Word) (s t : State) (σ : Nat → State) (a : Nat → Block), a 0 = key →
    (∀ i, i < 32 → ∃ u, exec (.round (a i) (BitVec.ofNat 64 i)) (σ i) = .next u ∧
      u.pending = some { status := 0b00#2, data := a (i + 1) }) →
    exec (.keyset key kf) s = .next t →
    ∀ (i : Nat) (h : i < 32), t.rk[i] = (a i).extractLsb' 0 64

/-! ## Commands, errors and responses -/

/-- 60_exceptions.md R134: the step function, case by case on OP, and that RK is not read while KEYED = 0. -/
def Obligations.StepFunctionOfSpec : Prop :=
  ∀ (c : Command) (s : State),
    (c.op = 0x01 → runCommand c s = .next { s with
      rk := keySchedule (c.a.extractLsb' 64 64) (c.a.extractLsb' 0 64)
      keyed := true
      phase := .holding .keyset { status := 0b00#2, data := 0 } }) ∧
    (c.op = 0x02 → runCommand c s = .next { s with
      phase := .holding .encrypt
        (if s.keyed then { status := 0b00#2, data := encryptF s.rk c.a } else { status := 0b10#2, data := 0 }) }) ∧
    (c.op = 0x03 → runCommand c s = .next { s with
      phase := .holding .decrypt
        (if s.keyed then { status := 0b00#2, data := decryptF s.rk c.a } else { status := 0b10#2, data := 0 }) }) ∧
    (c.op = 0x04 → runCommand c s = .next { s with
      phase := .holding .round
        { status := 0b00#2
          data := (roundF (c.a.extractLsb' 64 64) (c.a.extractLsb' 0 64) c.k).1 ++
            (roundF (c.a.extractLsb' 64 64) (c.a.extractLsb' 0 64) c.k).2 } }) ∧
    (c.op = 0x05 → runCommand c s = .next { s with
      phase := .holding .invround
        { status := 0b00#2
          data := (invRoundF (c.a.extractLsb' 64 64) (c.a.extractLsb' 0 64) c.k).1 ++
            (invRoundF (c.a.extractLsb' 64 64) (c.a.extractLsb' 0 64) c.k).2 } }) ∧
    (c.op = 0x00 ∨ 0x06 ≤ c.op.toNat → runCommand c s = .next { s with
      phase := .holding .illegal { status := 0b01#2, data := 0 } }) ∧
    (s.keyed = false → ∀ S : Vector Word 32, responses [c] { s with rk := S } = responses [c] s)

/-- 60_exceptions.md R131: which commands answer which error, in which states; the code 11 is never produced, and an error has
data 0 and changes no register. -/
def Obligations.ErrorResponses : Prop :=
  ∀ (c : Command) (s : State), ∃ (t : State) (r : Response), runCommand c s = .next t ∧ t.pending = some r ∧
    (r.status = 0b01#2 ↔ c.op ∉ [0x01#8, 0x02#8, 0x03#8, 0x04#8, 0x05#8]) ∧
    (r.status = 0b10#2 ↔ s.keyed = false ∧ (c.op = 0x02 ∨ c.op = 0x03)) ∧
    r.status ≠ 0b11#2 ∧
    (r.status ≠ 0b00#2 → r.data = 0 ∧ t = { s with phase := t.phase })

/-- 60_exceptions.md R132: decoding comes before the check of KEYED, that check applies to ENCRYPT and DECRYPT only, and reset
comes before everything: it leaves no response. -/
def Obligations.ErrorPriority : Prop :=
  (∀ (c : Command) (s : State), decodeKind c = .illegal → ∃ t, runCommand c s = .next t ∧
    t.pending = some { status := 0b01#2, data := 0 }) ∧
  (∀ (c : Command) (s : State), s.keyed = false → (decodeKind c = .encrypt ∨ decodeKind c = .decrypt) →
    ∃ t, runCommand c s = .next t ∧ t.pending = some { status := 0b10#2, data := 0 }) ∧
  (∀ (c : Command) (s : State), decodeKind c = .keyset ∨ decodeKind c = .round ∨ decodeKind c = .invround →
    ∃ (t : State) (r : Response), runCommand c s = .next t ∧ t.pending = some r ∧ r.status = 0b00#2) ∧
  (∀ s : State, s.port.rst = true → ∃ t, step s = .next t ∧ cycle s = .next t ∧ t.pending = none ∧ t.busy = false)

/-- 30_encoding.md R62: every accepted command produces exactly one response, and DATA is 0 for KEYSET and for every error. -/
def Obligations.ExactlyOneResponse : Prop :=
  (∀ (cs : List Command) (s : State), (responses cs s).length = cs.length) ∧
  (∀ (c : Command) (s : State), ∃ r : Response, responses [c] s = [r] ∧
    (r.status = 0b00#2 ∨ r.status = 0b01#2 ∨ r.status = 0b10#2) ∧
    (r.status ≠ 0b00#2 ∨ c.op = 0x01 → r.data = 0))

/-- 20_memory.md R46: an ENCRYPT or DECRYPT after a KEYSET uses the schedule that KEYSET wrote, whatever the state before, with
no command needed between; `cs` are any commands between that are no KEYSET. -/
def Obligations.EncryptAfterKeysetUsesItsSchedule : Prop :=
  ∀ (key b : Block) (k k' : Word) (cs : List Command) (s : State), (∀ d ∈ cs, decodeKind d ≠ .keyset) →
    ∃ rs : List Response, rs.length = cs.length ∧
      responses (encode (.keyset key k) :: cs ++ [encode (.encrypt b k')]) s =
        { status := 0b00#2, data := 0 } :: rs ++
          [{ status := 0b00#2, data := encryptF (keySchedule (key.extractLsb' 64 64) (key.extractLsb' 0 64)) b }] ∧
      responses (encode (.keyset key k) :: cs ++ [encode (.decrypt b k')]) s =
        { status := 0b00#2, data := 0 } :: rs ++
          [{ status := 0b00#2, data := decryptF (keySchedule (key.extractLsb' 64 64) (key.extractLsb' 0 64)) b }]

/-- 20_memory.md R44, 41_block_cipher.md R103: a command that is no KEYSET gives the same response when it is issued again with
no KEYSET between; the commands between may be any others. -/
def Obligations.RepeatedCommandSameResponse : Prop :=
  ∀ (c : Command) (cs : List Command) (s : State), decodeKind c ≠ .keyset → (∀ d ∈ cs, decodeKind d ≠ .keyset) →
    ∃ r rs, responses (c :: cs ++ [c]) s = r :: rs ++ [r]

/-- 10_state.md R32: a command that is no KEYSET may be put anywhere among others without changing their responses. -/
def Obligations.InsertedCommandChangesNoResponse : Prop :=
  ∀ (cs ds : List Command) (c : Command) (s : State), decodeKind c ≠ .keyset →
    ∃ r, responses (cs ++ c :: ds) s = responses cs s ++ r :: (responses (cs ++ ds) s).drop cs.length

/-- 95_test_vectors.md V1, V2, P1, P2: from reset, an ENCRYPT is turned away, and after the KEYSET of the known-answer key the
known block encrypts and decrypts as listed. -/
def Obligations.KnownAnswerRun : Prop :=
  responses
    [{ op := 0x02, a := 0x6c617669757165207469206564616d20, k := 0 },
     { op := 0x01, a := 0x0f0e0d0c0b0a09080706050403020100, k := 0 },
     { op := 0x02, a := 0x6c617669757165207469206564616d20, k := 0 },
     { op := 0x03, a := 0xa65d9851797832657860fedf5c570d18, k := 0 }] State.reset =
    [{ status := 0b10#2, data := 0 }, { status := 0b00#2, data := 0 },
     { status := 0b00#2, data := 0xa65d9851797832657860fedf5c570d18 },
     { status := 0b00#2, data := 0x6c617669757165207469206564616d20 }]

/-! ## Steps -/

/-- 60_exceptions.md R134, 30_encoding.md R66: when an idle block is not reset and the host presents a command that decodes to
`i`, the step is `exec` of `i`, with the present inputs used up and nothing else changed. -/
def Obligations.StepRunsDecodedInstruction : Prop :=
  ∀ (s : State) (i : Instr), s.phase = .idle → s.port.rst = false → s.port.cmdValid = true →
    decode s.port.cmd = .ok i → step s = exec i { s with inputs := s.inputs.tail }

/-- Assumption 5: `withFetchWord` puts the opcode table's word on the command port of the next step, so that the step runs the
instruction the decoder reads from it; the inputs listed before are left as they were. -/
def Obligations.FetchWordRunsNext : Prop :=
  ∀ (s : State) (nbits w : Nat) (i : Instr), decodeTableWord nbits w = some i →
    step (s.withFetchWord nbits w) = exec i { s with phase := .idle }

/-- 60_exceptions.md R134, 70_reset_and_hazards.md R153: presenting a command and then accepting its response takes two steps;
they give the command's response and leave the block idle, ready for the next command. That there are two steps, one for the
command and one for accepting its response, is the model's choice (assumption 3). -/
def Obligations.ScriptedCommandGivesItsResponse : Prop :=
  ∀ (s : State) (c : Command) (cs : List Command) (rest : List PortIn), s.phase = .idle →
    s.inputs = PortIn.command c :: PortIn.consume :: rest →
    ∃ (t u : State) (r : Response), step s = .next t ∧ t.pending = some r ∧ step t = .next u ∧ u.phase = .idle ∧
      u.inputs = rest ∧ responses (c :: cs) s = r :: responses cs u

/-- 60_exceptions.md R130, R134: the step function is total: no step and no clock cycle stops the block, in any state. -/
def Obligations.NothingStopsTheBlock : Prop :=
  ∀ s : State, (∃ t, step s = .next t) ∧ (∃ t, cycle s = .next t)

/-- 10_state.md R22: where a step or a clock cycle without reset changes RK or KEYED, a KEYSET has just completed, and RK is the
schedule of some key. That a clock cycle changes neither while the KEYSET still runs is the model's choice (assumption 6,
DEDUCED): 70_reset_and_hazards.md R153 says only that the effect is complete from the cycle of the response. -/
def Obligations.OnlyKeysetWritesState : Prop :=
  ∀ s t : State, s.port.rst = false → step s = .next t ∨ cycle s = .next t → (t.rk ≠ s.rk ∨ t.keyed ≠ s.keyed) →
    t.phase = .holding .keyset { status := 0b00#2, data := 0 } ∧ t.keyed = true ∧ ∃ k1 k2, t.rk = keySchedule k1 k2

/-- 10_state.md R23: only reset clears KEYED, and only a KEYSET sets it. That a clock cycle sets it only where the KEYSET has just
completed, and not while it still runs, is the model's choice (assumption 6, DEDUCED). -/
def Obligations.KeyedFlagTransitions : Prop :=
  ∀ s t : State, step s = .next t ∨ cycle s = .next t →
    (s.keyed = true → t.keyed = false → s.port.rst = true) ∧
    (s.keyed = false → t.keyed = true → s.port.rst = false ∧ ∃ r, t.phase = .holding .keyset r)

/-- 10_state.md R23, 30_encoding.md R62, 60_exceptions.md R131, 70_reset_and_hazards.md R153: a step keeps the invariant: KEYED
means that RK holds a key's schedule, a held response is a legal one, and a running command's wait is within its latency. -/
def Obligations.StepKeepsInvariant : Prop :=
  ∀ s t : State, s.Inv → step s = .next t → t.Inv

/-- The same for a clock cycle of the signal level, whatever the latencies are. That RK still holds a key's schedule, and KEYED its
old value, in the cycles of a running KEYSET is the model's choice (assumption 6, DEDUCED). -/
def Obligations.CycleKeepsInvariant : Prop :=
  ∀ s t : State, s.Inv → cycle s = .next t → t.Inv

/-- The invariant holds after reset. -/
def Obligations.ResetMeetsInvariant : Prop := State.reset.Inv

/-! ## Reset -/

/-- 70_reset_and_hazards.md R150: in every cycle with `rst` = 1, from any state at all (the unspecified one after power-up too), no
command is accepted, and KEYED, BUSY and `rsp_valid` become 0; a command can be accepted as soon as `rst` is 0 again (that last
clause is assumption 7). -/
def Obligations.ResetCycleClears : Prop :=
  (∀ s : State, s.port.rst = true → s.cmdReady = false ∧
    ∃ t, step s = .next t ∧ cycle s = .next t ∧ t.keyed = false ∧ t.busy = false ∧ t.rspValid = false ∧
      t.statusPort = 0x00#8 ∧ t.inputs = s.inputs.tail ∧ t.cmdReady = !t.port.rst) ∧
  (∃ t, cycle { State.powerUp with inputs := [PortIn.reset] } = .next t ∧ t.keyed = false ∧ t.phase = .idle)

/-- 70_reset_and_hazards.md R151: a reset while a command is outstanding drops it and its response; an aborted ENCRYPT, DECRYPT,
ROUND or INVROUND leaves RK unchanged in the cycle that aborts it (a further cycle of reset is assumption 2); and what an aborted
KEYSET left in RK is read by no later command. -/
def Obligations.ResetAbortsCommand : Prop :=
  ∀ s t : State, s.busy = true → s.port.rst = true → (step s = .next t ∨ cycle s = .next t) →
    t.pending = none ∧ t.busy = false ∧ t.keyed = false ∧
    (∀ c w, s.phase = .running c w → decodeKind c ∈ [.encrypt, .decrypt, .round, .invround] → t.rk = s.rk) ∧
    (∀ k r, s.phase = .holding k r → k ∈ [.encrypt, .decrypt, .round, .invround] → t.rk = s.rk) ∧
    (∀ (S : Vector Word 32) (cs : List Command), responses cs { t with rk := S } = responses cs t)

/-- 10_state.md R31: the values after reset, and that the contents of RK then (zeros in the model, assumption 1) cannot be
observed: with any others, every sequence of commands has the same responses. -/
def Obligations.ResetState : Prop :=
  State.reset.keyed = false ∧ State.reset.busy = false ∧ State.reset.pending = none ∧ State.reset.rspValid = false ∧
  State.reset.statusPort = 0x00#8 ∧
  ∀ (S : Vector Word 32) (cs : List Command), responses cs { State.reset with rk := S } = responses cs State.reset

/-- 10_state.md R31, R32: while KEYED = 0 the contents of RK cannot be learned through the ports: however long the block runs on
whatever the host drives, resets included, the output ports are the same for any two contents, at both levels. -/
def Obligations.UnkeyedRoundKeysUnobservable : Prop :=
  ∀ (s : State) (S : Vector Word 32) (n : Nat), s.keyed = false →
    (∃ t t', steps n s = .next t ∧ steps n { s with rk := S } = .next t' ∧ t'.portOut = t.portOut) ∧
    (∃ t t', cycles n s = .next t ∧ cycles n { s with rk := S } = .next t' ∧ t'.portOut = t.portOut)

/-! ## The ports and the clock -/

/-- 10_state.md R27: STATUS bit 0 is KEYED, bit 1 is BUSY and bits [7:2] are 0; BUSY is 0 in the accepting cycle, 1 from the cycle
after it, and stays 1 up to and including the cycle in which the response is consumed. -/
def Obligations.StatusPort : Prop :=
  (∀ s : State, s.statusPort.getLsbD 0 = s.keyed ∧ s.statusPort.getLsbD 1 = s.busy ∧
    s.statusPort.extractLsb' 2 6 = 0) ∧
  (∀ s : State, s.cmdReady = true → s.port.cmdValid = true →
    s.busy = false ∧ ∃ t, cycle s = .next t ∧ t.busy = true) ∧
  (∀ s : State, s.busy = true → s.port.rst = false →
    ∃ t, cycle s = .next t ∧ (t.busy = false ↔ s.rspValid = true ∧ s.port.rspReady = true)) ∧
  (∀ s : State, s.busy = false → s.port.cmdValid = false → ∃ t, cycle s = .next t ∧ t.busy = false)

/-- 70_reset_and_hazards.md R153: the handshake. `cmd_ready` is as given; after acceptance BUSY is 1 and no response is valid
before the latency of the command has passed; exactly then its response (R134) is; it is held until `rsp_ready`, and the block is
ready again in the cycle after that; what the command port carries while `cmd_ready` = 0 has no effect, and without a command no
response appears. `ps` are the cycles between acceptance and the response, without reset. -/
def Obligations.Handshake : Prop :=
  (∀ s : State, s.cmdReady = (!s.busy && !s.port.rst)) ∧
  (∀ (s : State) (p : PortIn) (ps rest : List PortIn), s.inputs = p :: (ps ++ rest) → s.cmdReady = true →
    p.cmdValid = true → (∀ q ∈ ps, q.rst = false) → ps.length + 1 = latencyOf p.cmd s →
    (∀ j, 0 < j → j ≤ ps.length → ∃ t, cycles j s = .next t ∧ t.busy = true ∧ t.rspValid = false) ∧
    (∃ t, cycles (ps.length + 1) s = .next t ∧ runCommand p.cmd { s with inputs := rest } = .next t ∧
      t.rspValid = true ∧ t.busy = true)) ∧
  (∀ s : State, s.rspValid = true → s.port.rst = false → s.port.rspReady = false →
    cycle s = .next { s with inputs := s.inputs.tail }) ∧
  (∀ s : State, s.rspValid = true → s.port.rst = false → s.port.rspReady = true →
    ∃ t, cycle s = .next t ∧ t.rspValid = false ∧ t.busy = false ∧ t.cmdReady = !t.port.rst ∧
      t.rk = s.rk ∧ t.keyed = s.keyed) ∧
  (∀ (s : State) (p q : PortIn) (rest : List PortIn), s.inputs = p :: rest → s.cmdReady = false → q.rst = p.rst →
    q.rspReady = p.rspReady → cycle { s with inputs := q :: rest } = cycle s) ∧
  (∀ s : State, s.busy = false → s.port.cmdValid = false →
    ∃ t, cycle s = .next t ∧ t.busy = false ∧ t.rspValid = false)

/-- 92_eei_decisions.md D1, 70_reset_and_hazards.md R156: the signal level refines the transaction level, whatever the latencies: a
command accepted by an idle block, run for its latency (`ps`), held for a while (`ws`) and consumed (`q`), leaves the state that
two transaction-level steps leave. That the transaction level takes two steps, one for the command and one for accepting its
response, is the model's choice (assumption 3). -/
def Obligations.SignalLevelRefinesTransaction : Prop :=
  ∀ (s : State) (p q : PortIn) (ps ws rest : List PortIn), s.phase = .idle →
    s.inputs = p :: (ps ++ (ws ++ q :: rest)) → p.rst = false → p.cmdValid = true →
    (∀ w ∈ ps, w.rst = false) → ps.length + 1 = latencyOf p.cmd s →
    (∀ w ∈ ws, w.rst = false ∧ w.rspReady = false) → q.rst = false → q.rspReady = true →
    cycles (ps.length + 1 + ws.length + 1) s = steps 2 { s with inputs := p :: q :: rest } ∧
    ∃ t : State, cycles (ps.length + 1 + ws.length + 1) s = .next t ∧ t.phase = .idle ∧ t.inputs = rest

/-- 70_reset_and_hazards.md R155: every latency is at least 1; it depends on the decoded command, and for ENCRYPT and DECRYPT on
whether the answer is ERR_NOKEY, never on A, K or RK; an illegal command and an ERR_NOKEY answer take `LAT_ILLEGAL`. -/
def Obligations.LatencyIsDataIndependent : Prop :=
  (∀ (c : Command) (s : State), 1 ≤ latencyOf c s) ∧
  (∀ (op : BitVec 8) (a a' : Block) (k k' : Word) (s s' : State),
    (s.keyed = s'.keyed ∨ (op ≠ 0x02 ∧ op ≠ 0x03) →
      latencyOf { op := op, a := a, k := k } s = latencyOf { op := op, a := a', k := k' } s') ∧
    (op = 0x01 → latencyOf { op := op, a := a, k := k } s = Config.latency .keyset) ∧
    (op = 0x02 → latencyOf { op := op, a := a, k := k } s = Config.latency (if s.keyed then .encrypt else .illegal)) ∧
    (op = 0x03 → latencyOf { op := op, a := a, k := k } s = Config.latency (if s.keyed then .decrypt else .illegal)) ∧
    (op = 0x04 → latencyOf { op := op, a := a, k := k } s = Config.latency .round) ∧
    (op = 0x05 → latencyOf { op := op, a := a, k := k } s = Config.latency .invround) ∧
    (op = 0x00 ∨ 0x06 ≤ op.toNat → latencyOf { op := op, a := a, k := k } s = Config.latency .illegal))

/-- 70_reset_and_hazards.md R154: while the host holds `rsp_ready` = 0 the block waits, however long: nothing changes but that the
inputs are used up, and no command is accepted. -/
def Obligations.ResponseHeldIndefinitely : Prop :=
  ∀ (s : State) (ws rest : List PortIn), s.rspValid = true → s.inputs = ws ++ rest →
    (∀ w ∈ ws, w.rst = false ∧ w.rspReady = false) →
    cycles ws.length s = .next { s with inputs := rest } ∧ s.cmdReady = false

/-- 70_reset_and_hazards.md R158: a running command with `w` cycles to go ends, and the block is idle, once the host accepts its
response; and an idle block does nothing until the next command or reset. -/
def Obligations.RunEnds : Prop :=
  (∀ (s : State) (c : Command) (w : Nat) (ps rest : List PortIn), s.phase = .running c w → 0 < w →
    s.inputs = ps ++ rest → ps.length = w + 1 → (∀ p ∈ ps, p.rst = false ∧ p.rspReady = true) →
    ∃ t, cycles (w + 1) s = .next t ∧ t.phase = .idle ∧ t.inputs = rest) ∧
  (∀ (s : State) (ps rest : List PortIn), s.phase = .idle → s.inputs = ps ++ rest →
    (∀ p ∈ ps, p.rst = false ∧ p.cmdValid = false) → cycles ps.length s = .next { s with inputs := rest })

/-! ## The assembly language -/

/-- 30_encoding.md R64: each pseudo-instruction is the command word of its expansion. -/
def Obligations.AliasesAreTheSameCommand : Prop :=
  (∀ (b key : Option Nat), (AsmLine.ecbEncrypt b).assemble = (AsmLine.encrypt b none).assemble ∧
    (AsmLine.ecbDecrypt b).assemble = (AsmLine.decrypt b none).assemble ∧
    (AsmLine.new key).assemble = (AsmLine.keyset key none).assemble) ∧
  (∀ (x y k : Word),
    (AsmLine.roundxy x.toNat y.toNat k.toNat).assemble = encode (.round (x ++ y) k) ∧
    (AsmLine.invroundxy x.toNat y.toNat k.toNat).assemble = encode (.invround (x ++ y) k)) ∧
  (∀ l : AsmLine, l.expand.assemble = l.assemble)

/-- 30_encoding.md R63, 00_scope.md R6: the hexadecimal digits of a number, most significant first, are read back as the number. -/
def Obligations.HexLiteralReadBack : Prop :=
  ∀ n v : Nat, 0 < n → v < 16 ^ n → readHex ('0' :: 'x' :: hexDigits n v) = some v
end

