-- ==== Sys2Proof/Laws/Decode.lean ====
section
/-! SUPPORT. What DECODE can answer, said once, and the fields of an encoded instruction. -/

namespace Sys2Proof

/-- Everything `decode` can answer, with the fields of the opcode byte it found. -/
theorem decode_cases (c : Command) :
    (decode c = .error .reservedBits ∧ rsvOf c.op ≠ 0) ∨
    (rsvOf c.op = 0 ∧
      ((funcOf c.op = 1 ∧ decode c = .ok (.keyset c.a c.k)) ∨
       (funcOf c.op = 2 ∧ decode c = .ok (.encrypt c.a c.k)) ∨
       (funcOf c.op = 3 ∧ decode c = .ok (.decrypt c.a c.k)) ∨
       (funcOf c.op = 4 ∧ decode c = .ok (.round c.a c.k)) ∨
       (funcOf c.op = 5 ∧ decode c = .ok (.invround c.a c.k)) ∨
       (funcOf c.op ∉ [1, 2, 3, 4, 5] ∧ decode c = .error .unassignedFunc))) := by
  unfold decode
  by_cases h : rsvOf c.op = 0
  · refine .inr ⟨h, ?_⟩
    by_cases h1 : funcOf c.op = 1 <;> by_cases h2 : funcOf c.op = 2 <;> by_cases h3 : funcOf c.op = 3 <;>
      by_cases h4 : funcOf c.op = 4 <;> by_cases h5 : funcOf c.op = 5 <;> simp_all
  · exact .inl ⟨if_pos h, h⟩

/-- An opcode byte is its two fields, RSV above FUNC. -/
theorem op_eq_append (op : BitVec 8) : op = (rsvOf op ++ funcOf op : BitVec (4 + 4)) := by
  revert op; decide

@[simp] theorem encode_op (i : Instr) : (encode i).op = opcodeOf i := rfl
@[simp] theorem encode_a (i : Instr) : (encode i).a = fieldA i := rfl
@[simp] theorem encode_k (i : Instr) : (encode i).k = fieldK i := rfl

@[simp] theorem decodeKind_of_ok {c : Command} {i : Instr} (h : decode c = .ok i) : decodeKind c = i.kind := by
  simp [decodeKind, h]

@[simp] theorem decodeKind_of_error {c : Command} {e : Illegal} (h : decode c = .error e) : decodeKind c = .illegal := by
  simp [decodeKind, h]

/-- A command is illegal for DECODE exactly when it has no instruction. -/
theorem decodeKind_eq_illegal_iff (c : Command) : decodeKind c = .illegal ↔ ∃ e, decode c = .error e := by
  cases h : decode c with
  | error e => simp [decodeKind, h]
  | ok i => cases i <;> simp [decodeKind, h, Instr.kind]

end Sys2Proof
end

