-- ==== Sys2Proof/Laws/Ops.lean ====
section
/-! SUPPORT. The equations of the pure functions, for rewriting without unfolding them. -/

namespace Sys2Proof.Machine

/-- The components of a forward round (40_round_engine.md R80). -/
theorem roundF_eq (x y k : Word) :
    roundF x y k = ((ror64 x 8 + y) ^^^ k, rol64 y 3 ^^^ ((ror64 x 8 + y) ^^^ k)) := rfl

/-- The components of an inverse round (40_round_engine.md R81). -/
theorem invRoundF_eq (x y k : Word) :
    invRoundF x y k = (rol64 ((x ^^^ k) - ror64 (y ^^^ x) 3) 8, ror64 (y ^^^ x) 3) := rfl

theorem ror64_getLsbD (v : Word) (i : Nat) {r : Nat} (hr : 0 < r) (h : r < 64) :
    (ror64 v r).getLsbD i = (decide (i < 64) && v.getLsbD ((i + r) % 64)) := by
  simp only [ror64, BitVec.getLsbD_or, BitVec.getLsbD_ushiftRight, BitVec.getLsbD_shiftLeft]
  by_cases hi : i < 64
  · by_cases hlt : i < 64 - r
    · have h1 : (i + r) % 64 = r + i := by omega
      simp [hi, hlt, h1]
    · have h1 : (i + r) % 64 = i - (64 - r) := by omega
      have h2 : 64 ≤ r + i := by omega
      simp [hi, hlt, h1, BitVec.getLsbD_of_ge v _ h2]
  · have h2 : 64 ≤ r + i := by omega
    simp [hi, BitVec.getLsbD_of_ge v _ h2]

theorem rol64_getLsbD (v : Word) (i : Nat) {r : Nat} (hr : 0 < r) (h : r < 64) :
    (rol64 v r).getLsbD i = (decide (i < 64) && v.getLsbD ((i + (64 - r)) % 64)) := by
  simp only [rol64, BitVec.getLsbD_or, BitVec.getLsbD_ushiftRight, BitVec.getLsbD_shiftLeft]
  by_cases hi : i < 64
  · by_cases hlt : i < r
    · have h1 : (i + (64 - r)) % 64 = 64 - r + i := by omega
      simp [hi, hlt, h1]
    · have h1 : (i + (64 - r)) % 64 = i - r := by omega
      have h2 : 64 ≤ 64 - r + i := by omega
      simp [hi, hlt, h1, BitVec.getLsbD_of_ge v _ h2]
  · have h2 : 64 ≤ 64 - r + i := by omega
    simp [hi, BitVec.getLsbD_of_ge v _ h2]

/-- A left rotation undoes the right rotation by the same amount. -/
theorem rol64_ror64 (v : Word) {r : Nat} (hr : 0 < r) (h : r < 64) : rol64 (ror64 v r) r = v := by
  apply BitVec.eq_of_getLsbD_eq
  intro i hi
  have h1 : ((i + (64 - r)) % 64 + r) % 64 = i := by omega
  have h2 : (i + (64 - r)) % 64 < 64 := Nat.mod_lt _ (by decide)
  rw [rol64_getLsbD _ _ hr h, ror64_getLsbD _ _ hr h, h1]
  simp only [hi, h2, decide_true, Bool.true_and]

/-- A right rotation undoes the left rotation by the same amount. -/
theorem ror64_rol64 (v : Word) {r : Nat} (hr : 0 < r) (h : r < 64) : ror64 (rol64 v r) r = v := by
  apply BitVec.eq_of_getLsbD_eq
  intro i hi
  have h1 : ((i + r) % 64 + (64 - r)) % 64 = i := by omega
  have h2 : (i + r) % 64 < 64 := Nat.mod_lt _ (by decide)
  rw [ror64_getLsbD _ _ hr h, rol64_getLsbD _ _ hr h, h1]
  simp only [hi, h2, decide_true, Bool.true_and]

@[simp] theorem highHalf_join (hi lo : Word) : highHalf (join hi lo) = hi := by
  apply BitVec.eq_of_getLsbD_eq
  intro i h
  rw [highHalf, join, BitVec.getLsbD_extractLsb', BitVec.getLsbD_append]
  simp [h]

@[simp] theorem lowHalf_join (hi lo : Word) : lowHalf (join hi lo) = lo := by
  apply BitVec.eq_of_getLsbD_eq
  intro i h
  rw [lowHalf, join, BitVec.getLsbD_extractLsb', BitVec.getLsbD_append]
  simp [h]

/-- One pass of the loop of the key schedule. -/
theorem scheduleFrom_succ (n i : Nat) (kk : Word × Word) :
    scheduleFrom (n + 1) i kk = kk.2 :: scheduleFrom n (i + 1) (roundF kk.1 kk.2 (zext64 (BitVec.ofNat 5 i))) := rfl

/-- The schedule as a list: 32 passes of the loop (40_round_engine.md R83). -/
theorem keySchedule_toList (k1 k2 : Word) : (keySchedule k1 k2).toList = scheduleFrom 32 0 (k1, k2) := rfl

/-- Round key `i` is what pass `i` of the loop records (40_round_engine.md R83). -/
theorem keySchedule_getElem? (k1 k2 : Word) (i : Nat) : (keySchedule k1 k2)[i]? = (scheduleFrom 32 0 (k1, k2))[i]? := by
  rw [← keySchedule_toList, Vector.getElem?_toList]

/-- `ENCRYPT_F` is a fold over the schedule (41_block_cipher.md R100). -/
theorem encryptF_eq (S : Vector Word 32) (p : Block) :
    encryptF S p = join (S.toList.foldl (fun xy k => roundF xy.1 xy.2 k) (split p)).1
      (S.toList.foldl (fun xy k => roundF xy.1 xy.2 k) (split p)).2 := rfl

/-- `DECRYPT_F` is a fold over the schedule from its end (41_block_cipher.md R101). -/
theorem decryptF_eq (S : Vector Word 32) (c : Block) :
    decryptF S c = join (S.toList.foldr (fun k xy => invRoundF xy.1 xy.2 k) (split c)).1
      (S.toList.foldr (fun k xy => invRoundF xy.1 xy.2 k) (split c)).2 := rfl

/-- The round keys after a reset: as before where the aborted command is one that leaves them, else free. -/
theorem roundKeysAfterReset_cases (s : State) :
    (s.roundKeysAfterReset = s.rk ∧ ∃ k, s.phase.outstanding = some k ∧ abortKeepsRoundKeys k = true) ∨
    (s.roundKeysAfterReset = Config.freeRoundKeys s.freeCount ∧
      ∀ k, s.phase.outstanding = some k → abortKeepsRoundKeys k = false) := by
  unfold State.roundKeysAfterReset
  cases h : s.phase.outstanding with
  | none => simp
  | some k => cases hk : abortKeepsRoundKeys k <;> simp [hk]

end Sys2Proof.Machine
end

