-- ==== Sys2Proof/Laws/PerInstr.lean ====
section
/-! SUPPORT. The family of statements about each instruction as syntax: its opcode byte. -/

namespace Sys2Proof.Laws

/-- The encoding of the instruction is a legal command of its own kind, and its RSV field is zero (30_encoding.md R56, R57). -/
def OpcodeByte.Statement (i : Instr) : Prop :=
  (encode i).wellFormed = true ∧ rsvOf (encode i).op = 0 ∧ decodeKind (encode i) = i.kind

theorem OpcodeByte.keyset (a : Block) (k : Word) : OpcodeByte.Statement (.keyset a k) := 
  ⟨by simp [Command.wellFormed, Command.rsvIsZero, Command.funcIsAssigned, encode, opcodeOf], by simp [encode, opcodeOf, rsvOf], by simp [decodeKind, decode, encode, opcodeOf, rsvOf, funcOf, Instr.kind]⟩
theorem OpcodeByte.encrypt (a : Block) (k : Word) : OpcodeByte.Statement (.encrypt a k) := 
  ⟨by simp [Command.wellFormed, Command.rsvIsZero, Command.funcIsAssigned, encode, opcodeOf], by simp [encode, opcodeOf, rsvOf], by simp [decodeKind, decode, encode, opcodeOf, rsvOf, funcOf, Instr.kind]⟩
theorem OpcodeByte.decrypt (a : Block) (k : Word) : OpcodeByte.Statement (.decrypt a k) := 
  ⟨by simp [Command.wellFormed, Command.rsvIsZero, Command.funcIsAssigned, encode, opcodeOf], by simp [encode, opcodeOf, rsvOf], by simp [decodeKind, decode, encode, opcodeOf, rsvOf, funcOf, Instr.kind]⟩
theorem OpcodeByte.round (a : Block) (k : Word) : OpcodeByte.Statement (.round a k) := 
  ⟨by simp [Command.wellFormed, Command.rsvIsZero, Command.funcIsAssigned, encode, opcodeOf], by simp [encode, opcodeOf, rsvOf], by simp [decodeKind, decode, encode, opcodeOf, rsvOf, funcOf, Instr.kind]⟩
theorem OpcodeByte.invround (a : Block) (k : Word) : OpcodeByte.Statement (.invround a k) := 
  ⟨by simp [Command.wellFormed, Command.rsvIsZero, Command.funcIsAssigned, encode, opcodeOf], by simp [encode, opcodeOf, rsvOf], by simp [decodeKind, decode, encode, opcodeOf, rsvOf, funcOf, Instr.kind]⟩

end Sys2Proof.Laws
end

