-- ==== Sys2Proof/Laws/State.lean ====
section
/-! SUPPORT. The fields of a state after each of its updates, so that no proof unfolds a record update, and the views of the
phase (BUSY, the pending response, the STATUS port). -/

namespace Sys2Proof.Machine

section Respond
variable (kind : Kind) (e : StatusCode) (d : Block) (s : State)

@[simp] theorem State.respond_rk : (s.respond kind e d).rk = s.rk := rfl
@[simp] theorem State.respond_keyed : (s.respond kind e d).keyed = s.keyed := rfl
@[simp] theorem State.respond_phase : (s.respond kind e d).phase = .holding kind { status := e, data := d } := rfl
@[simp] theorem State.respond_inputs : (s.respond kind e d).inputs = s.inputs := rfl
@[simp] theorem State.respond_freeCount : (s.respond kind e d).freeCount = s.freeCount := rfl
@[simp] theorem State.raise_eq_respond : s.raise kind e = s.respond kind e 0 := rfl

end Respond

section LoadSchedule
variable (S : Vector Word 32) (s : State)

@[simp] theorem State.loadSchedule_rk : (s.loadSchedule S).rk = S := rfl
@[simp] theorem State.loadSchedule_keyed : (s.loadSchedule S).keyed = true := rfl
@[simp] theorem State.loadSchedule_phase : (s.loadSchedule S).phase = s.phase := rfl
@[simp] theorem State.loadSchedule_inputs : (s.loadSchedule S).inputs = s.inputs := rfl
@[simp] theorem State.loadSchedule_freeCount : (s.loadSchedule S).freeCount = s.freeCount := rfl

end LoadSchedule

section Inputs
variable (s : State)

@[simp] theorem State.popInput_rk : s.popInput.rk = s.rk := rfl
@[simp] theorem State.popInput_keyed : s.popInput.keyed = s.keyed := rfl
@[simp] theorem State.popInput_phase : s.popInput.phase = s.phase := rfl
@[simp] theorem State.popInput_inputs : s.popInput.inputs = s.inputs.tail := rfl
@[simp] theorem State.popInput_freeCount : s.popInput.freeCount = s.freeCount := rfl

/-- With nothing listed, every input port is 0. -/
theorem State.port_of_nil (h : s.inputs = []) : s.port = PortIn.low := by simp [State.port, h]

/-- The first listed input is the present one. -/
theorem State.port_of_cons {p : PortIn} {ps : List PortIn} (h : s.inputs = p :: ps) : s.port = p := by
  simp [State.port, h]

end Inputs

section Consume
variable (s : State)

@[simp] theorem State.consume_rk : s.consume.rk = s.rk := rfl
@[simp] theorem State.consume_keyed : s.consume.keyed = s.keyed := rfl
@[simp] theorem State.consume_phase : s.consume.phase = .idle := rfl
@[simp] theorem State.consume_inputs : s.consume.inputs = s.inputs := rfl
@[simp] theorem State.consume_freeCount : s.consume.freeCount = s.freeCount := rfl
@[simp] theorem State.offerResponse_true : s.offerResponse true = s.consume := rfl
@[simp] theorem State.offerResponse_false : s.offerResponse false = s := rfl

end Consume

section Reset
variable (s : State)

@[simp] theorem State.resetCycle_rk : s.resetCycle.rk = s.roundKeysAfterReset := rfl
@[simp] theorem State.resetCycle_keyed : s.resetCycle.keyed = false := rfl
@[simp] theorem State.resetCycle_phase : s.resetCycle.phase = .idle := rfl
@[simp] theorem State.resetCycle_inputs : s.resetCycle.inputs = s.inputs := rfl
@[simp] theorem State.resetCycle_freeCount : s.resetCycle.freeCount = s.freeCount + 1 := rfl

end Reset

section Presenting
variable (c : Command) (s : State)

@[simp] theorem State.presenting_rk : (s.presenting c).rk = s.rk := rfl
@[simp] theorem State.presenting_keyed : (s.presenting c).keyed = s.keyed := rfl
@[simp] theorem State.presenting_phase : (s.presenting c).phase = .idle := rfl
@[simp] theorem State.presenting_inputs : (s.presenting c).inputs = PortIn.command c :: s.inputs := rfl
@[simp] theorem State.presenting_port : (s.presenting c).port = PortIn.command c := rfl

end Presenting

section Views
variable (s : State)

/-- BUSY = 0 exactly when no command is outstanding. -/
theorem State.busy_eq_false_iff : s.busy = false ↔ s.phase = .idle := by
  cases h : s.phase <;> simp [State.busy, h]

/-- A response is pending exactly when the phase holds it. -/
theorem State.pending_eq_some_iff (r : Response) : s.pending = some r ↔ ∃ kind, s.phase = .holding kind r := by
  cases h : s.phase <;> simp [State.pending, h]

/-- A pending response means BUSY = 1. -/
theorem State.busy_of_pending {r : Response} (h : s.pending = some r) : s.busy = true := by
  obtain ⟨kind, hp⟩ := (State.pending_eq_some_iff s r).1 h
  simp [State.busy, hp]

end Views

end Sys2Proof.Machine
end

