-- ==== Sys2Proof/Laws/Step.lean ====
section
/-! SUPPORT. What a meaning, a command, a step and a clock cycle can do, each said once. -/

namespace Sys2Proof.Machine

/-! ## The meanings -/

@[simp] theorem exec_keyset (a : Block) (k : Word) (s : State) : exec (.keyset a k) s =
    .next ((s.loadSchedule (keySchedule (highHalf a) (lowHalf a))).respond .keyset statusOk 0) := rfl

@[simp] theorem exec_encrypt (a : Block) (k : Word) (s : State) : exec (.encrypt a k) s =
    if s.keyed then .next (s.respond .encrypt statusOk (encryptF s.rk a))
    else .next (s.respond .encrypt statusErrNoKey 0) := rfl

@[simp] theorem exec_decrypt (a : Block) (k : Word) (s : State) : exec (.decrypt a k) s =
    if s.keyed then .next (s.respond .decrypt statusOk (decryptF s.rk a))
    else .next (s.respond .decrypt statusErrNoKey 0) := rfl

@[simp] theorem exec_round (a : Block) (k : Word) (s : State) : exec (.round a k) s =
    .next (s.respond .round statusOk
      (join (roundF (highHalf a) (lowHalf a) k).1 (roundF (highHalf a) (lowHalf a) k).2)) := rfl

@[simp] theorem exec_invround (a : Block) (k : Word) (s : State) : exec (.invround a k) s =
    .next (s.respond .invround statusOk
      (join (invRoundF (highHalf a) (lowHalf a) k).1 (invRoundF (highHalf a) (lowHalf a) k).2)) := rfl

theorem exec_encrypt_keyed (a : Block) (k : Word) {s : State} (h : s.keyed = true) :
    exec (.encrypt a k) s = .next (s.respond .encrypt statusOk (encryptF s.rk a)) := by rw [exec_encrypt, if_pos h]

theorem exec_encrypt_unkeyed (a : Block) (k : Word) {s : State} (h : s.keyed = false) :
    exec (.encrypt a k) s = .next (s.respond .encrypt statusErrNoKey 0) := by rw [exec_encrypt, if_neg (by simp [h])]

theorem exec_decrypt_keyed (a : Block) (k : Word) {s : State} (h : s.keyed = true) :
    exec (.decrypt a k) s = .next (s.respond .decrypt statusOk (decryptF s.rk a)) := by rw [exec_decrypt, if_pos h]

theorem exec_decrypt_unkeyed (a : Block) (k : Word) {s : State} (h : s.keyed = false) :
    exec (.decrypt a k) s = .next (s.respond .decrypt statusErrNoKey 0) := by rw [exec_decrypt, if_neg (by simp [h])]

/-- Everything a meaning does: it answers with a response of its own kind, and only KEYSET writes RK and KEYED. -/
theorem exec_cases (i : Instr) (s : State) : ∃ status data,
    (exec i s = .next (s.respond i.kind status data) ∧ i.kind ≠ .keyset) ∨
    (∃ a k, i = .keyset a k ∧
      exec i s = .next ((s.loadSchedule (keySchedule (highHalf a) (lowHalf a))).respond .keyset statusOk 0)) := by
  cases i with
  | keyset a k => exact ⟨0, 0, .inr ⟨a, k, rfl, rfl⟩⟩
  | encrypt a k => cases h : s.keyed <;> exact ⟨_, _, .inl ⟨by simp [h, Instr.kind]; rfl, by simp [Instr.kind]⟩⟩
  | decrypt a k => cases h : s.keyed <;> exact ⟨_, _, .inl ⟨by simp [h, Instr.kind]; rfl, by simp [Instr.kind]⟩⟩
  | round a k => exact ⟨_, _, .inl ⟨rfl, by simp [Instr.kind]⟩⟩
  | invround a k => exact ⟨_, _, .inl ⟨rfl, by simp [Instr.kind]⟩⟩

/-! ## A command -/

theorem runCommand_of_ok {c : Command} {i : Instr} (h : decode c = .ok i) (s : State) : runCommand c s = exec i s := by
  simp [runCommand, h]

theorem runCommand_of_error {c : Command} {e : Illegal} (h : decode c = .error e) (s : State) :
    runCommand c s = .next (s.respond .illegal statusErrIllegal 0) := by
  simp [runCommand, h]

/-- Everything a command does: one response of its kind; only a KEYSET writes RK and KEYED. -/
theorem runCommand_cases (c : Command) (s : State) : ∃ status data,
    (decodeKind c ≠ .keyset ∧ runCommand c s = .next (s.respond (decodeKind c) status data)) ∨
    (decodeKind c = .keyset ∧ runCommand c s =
      .next ((s.loadSchedule (keySchedule (highHalf c.a) (lowHalf c.a))).respond .keyset statusOk 0)) := by
  rcases decode_cases c with ⟨h, -⟩ | ⟨-, ⟨-, h⟩ | ⟨-, h⟩ | ⟨-, h⟩ | ⟨-, h⟩ | ⟨-, h⟩ | ⟨-, h⟩⟩
  · exact ⟨_, _, .inl ⟨by simp [decodeKind, h], by rw [runCommand_of_error h]; simp [decodeKind, h]; rfl⟩⟩
  · exact ⟨0, 0, .inr ⟨by simp [decodeKind, h, Instr.kind], by rw [runCommand_of_ok h]; rfl⟩⟩
  · cases hk : s.keyed <;> exact ⟨_, _, .inl ⟨by simp [decodeKind, h, Instr.kind], by
      rw [runCommand_of_ok h]; simp [decodeKind, h, Instr.kind, hk]; rfl⟩⟩
  · cases hk : s.keyed <;> exact ⟨_, _, .inl ⟨by simp [decodeKind, h, Instr.kind], by
      rw [runCommand_of_ok h]; simp [decodeKind, h, Instr.kind, hk]; rfl⟩⟩
  · exact ⟨_, _, .inl ⟨by simp [decodeKind, h, Instr.kind], by
      rw [runCommand_of_ok h]; simp [decodeKind, h, Instr.kind]; rfl⟩⟩
  · exact ⟨_, _, .inl ⟨by simp [decodeKind, h, Instr.kind], by
      rw [runCommand_of_ok h]; simp [decodeKind, h, Instr.kind]; rfl⟩⟩
  · exact ⟨_, _, .inl ⟨by simp [decodeKind, h], by rw [runCommand_of_error h]; simp [decodeKind, h]; rfl⟩⟩

/-- A command reads nothing of the phase, and replaces it. -/
theorem runCommand_phase (c : Command) (ph : Phase) (s : State) : runCommand c { s with phase := ph } = runCommand c s := by
  unfold runCommand
  cases decode c with
  | error e => rfl
  | ok i => cases i <;> rfl

/-- A command leaves the inputs alone, and none but a held response is pending after it. -/
theorem runCommand_next (c : Command) (s : State) : ∃ t r, runCommand c s = .next t ∧
    t.phase = .holding (decodeKind c) r ∧ t.inputs = s.inputs ∧ t.freeCount = s.freeCount := by
  obtain ⟨e, d, ⟨-, h⟩ | ⟨hk, h⟩⟩ := runCommand_cases c s
  · exact ⟨_, _, h, rfl, rfl, rfl⟩
  · exact ⟨_, _, h, by simp [hk]; rfl, rfl, rfl⟩

/-! ## A step -/

theorem step_of_rst {s : State} (h : s.port.rst = true) : step s = .next s.popInput.resetCycle := by
  simp [step, transactionStep, h]

theorem step_of_idle {s : State} (hr : s.port.rst = false) (hp : s.phase = .idle) (hv : s.port.cmdValid = false) :
    step s = .next s.popInput := by
  simp [step, transactionStep, hr, hp, hv]

theorem step_of_command {s : State} (hr : s.port.rst = false) (hp : s.phase = .idle) (hv : s.port.cmdValid = true) :
    step s = runCommand s.port.cmd s.popInput := by
  simp [step, transactionStep, hr, hp, hv]

theorem step_of_running {s : State} {c : Command} {w : Nat} (hr : s.port.rst = false) (hp : s.phase = .running c w) :
    step s = runCommand c s.popInput := by
  simp [step, transactionStep, hr, hp]

theorem step_of_holding {s : State} {k : Kind} {r : Response} (hr : s.port.rst = false) (hp : s.phase = .holding k r) :
    step s = .next (s.popInput.offerResponse s.port.rspReady) := by
  simp [step, transactionStep, hr, hp]

/-- Everything a step does. -/
theorem step_cases (s : State) :
    (s.port.rst = true ∧ step s = .next s.popInput.resetCycle) ∨
    (s.port.rst = false ∧
      ((s.phase = .idle ∧ s.port.cmdValid = false ∧ step s = .next s.popInput) ∨
       (s.phase = .idle ∧ s.port.cmdValid = true ∧ step s = runCommand s.port.cmd s.popInput) ∨
       (∃ c w, s.phase = .running c w ∧ step s = runCommand c s.popInput) ∨
       (∃ k r, s.phase = .holding k r ∧ step s = .next (s.popInput.offerResponse s.port.rspReady)))) := by
  cases hr : s.port.rst with
  | true => exact .inl ⟨rfl, step_of_rst hr⟩
  | false =>
    refine .inr ⟨rfl, ?_⟩
    cases hp : s.phase with
    | idle =>
      cases hv : s.port.cmdValid with
      | false => exact .inl ⟨rfl, rfl, step_of_idle hr hp hv⟩
      | true => exact .inr (.inl ⟨rfl, rfl, step_of_command hr hp hv⟩)
    | running c w => exact .inr (.inr (.inl ⟨c, w, rfl, step_of_running hr hp⟩))
    | holding k r => exact .inr (.inr (.inr ⟨k, r, rfl, step_of_holding hr hp⟩))

@[simp] theorem steps_zero (s : State) : steps 0 s = .next s := rfl

theorem steps_succ_of_next {s t : State} (n : Nat) (h : step s = .next t) : steps (n + 1) s = steps n t := by
  simp [steps, h]

/-! ## A clock cycle -/

@[simp] theorem progress_zero (c : Command) (s : State) : progress c 0 s = runCommand c s := rfl

@[simp] theorem progress_succ (c : Command) (w : Nat) (s : State) :
    progress c (w + 1) s = .next { s with phase := .running c (w + 1) } := rfl

theorem cycle_of_rst {s : State} (h : s.port.rst = true) : cycle s = .next s.popInput.resetCycle := by
  simp [cycle, h]

/-- Everything a clock cycle does. -/
theorem cycle_cases (s : State) :
    (s.port.rst = true ∧ cycle s = .next s.popInput.resetCycle) ∨
    (s.port.rst = false ∧
      ((s.phase = .idle ∧ s.port.cmdValid = false ∧ cycle s = .next s.popInput) ∨
       (s.phase = .idle ∧ s.port.cmdValid = true ∧
        cycle s = progress s.port.cmd (latencyOf s.port.cmd s - 1) s.popInput) ∨
       (∃ c w, s.phase = .running c w ∧ cycle s = progress c (w - 1) s.popInput) ∨
       (∃ k r, s.phase = .holding k r ∧ cycle s = .next (s.popInput.offerResponse s.port.rspReady)))) := by
  cases hr : s.port.rst with
  | true => exact .inl ⟨rfl, cycle_of_rst hr⟩
  | false =>
    refine .inr ⟨rfl, ?_⟩
    cases hp : s.phase with
    | idle => cases hv : s.port.cmdValid <;> simp [cycle, hr, hp, hv]
    | running c w => exact .inr (.inr (.inl ⟨c, w, rfl, by simp [cycle, hr, hp]⟩))
    | holding k r => exact .inr (.inr (.inr ⟨k, r, rfl, by simp [cycle, hr, hp]⟩))

@[simp] theorem cycles_zero (s : State) : cycles 0 s = .next s := rfl

theorem cycles_succ_of_next {s t : State} (n : Nat) (h : cycle s = .next t) : cycles (n + 1) s = cycles n t := by
  simp [cycles, h]

/-- A latency is its parameter, which is at least 1 (70_reset_and_hazards.md R155). -/
theorem latencyOf_pos (c : Command) (s : State) : 0 < latencyOf c s := Nat.succ_pos _

/-- The latency of a command reads nothing of the state but KEYED. -/
theorem latencyOf_congr (c : Command) {s t : State} (h : s.keyed = t.keyed) : latencyOf c s = latencyOf c t := by
  simp [latencyOf, latencyKind, h]

end Sys2Proof.Machine
end

