-- ==== Sys2Proof/Tests/Slice0.lean ====
section
/-! SUPPORT. Tests of the model on values taken from spec/ (95_test_vectors.md and the examples of the rules, named at each test),
and a witness for the hypotheses of each statement that has some. -/

open Sys2Proof Sys2Proof.Machine

namespace Sys2Proof.Tests

/-! ## Well-formedness: each check refuses an ill-formed term -/

/-- V55: RSV = 1, FUNC = ENCRYPT. -/
theorem test_wellFormed_refuses_rsv : Command.rsvIsZero { op := 0x12, a := 0, k := 0 } = false ∧
    Command.wellFormed { op := 0x12, a := 0, k := 0 } = false := by decide +kernel

/-- V52, V53, V54: FUNC unassigned. -/
theorem test_wellFormed_refuses_func : Command.funcIsAssigned { op := 0x06, a := 0, k := 0 } = false ∧
    Command.wellFormed { op := 0x00, a := 0, k := 0 } = false ∧
    Command.wellFormed { op := 0x0f, a := 0, k := 0 } = false := by decide +kernel

/-- R63: a 128-bit and a 64-bit literal, and an 8-bit one, each one too large. -/
theorem test_wellFormed_refuses_literals : (AsmLine.round (some (2 ^ 128)) none).wellFormed = false ∧
    (AsmLine.round none (some (2 ^ 64))).wellFormed = false ∧ (AsmLine.cmd 256 none none).wellFormed = false ∧
    (AsmLine.new (some (2 ^ 128))).wellFormed = false ∧ (AsmLine.roundxy (2 ^ 64) 0 0).wellFormed = false := by
  decide +kernel

/-! ## Decoding: a word of each command, written out from R55 and R57 -/

/-- The encoding of V59. -/
theorem test_decode_keyset : decodeTableWord 200 0x01_0f0e0d0c0b0a09080706050403020100_0000000000000000 =
    some (.keyset 0x0f0e0d0c0b0a09080706050403020100 0) := by decide +kernel

/-- The encoding of V46. -/
theorem test_decode_encrypt : decodeTableWord 200 0x02_6c617669757165207469206564616d20_ffffffffffffffff =
    some (.encrypt 0x6c617669757165207469206564616d20 0xffffffffffffffff) := by decide +kernel

/-- The encoding of V51. -/
theorem test_decode_decrypt : decodeTableWord 200 0x03_a65d9851797832657860fedf5c570d18_0000000000000000 =
    some (.decrypt 0xa65d9851797832657860fedf5c570d18 0) := by decide +kernel

/-- The encoding of P5 step 2. -/
theorem test_decode_round : decodeTableWord 200 0x04_93d384dfced4df85309a87f4eddfb686_37253b31171d0309 =
    some (.round 0x93d384dfced4df85309a87f4eddfb686 0x37253b31171d0309) := by decide +kernel

/-- The encoding of P5 step 3. -/
theorem test_decode_invround : decodeTableWord 200 0x05_a65d9851797832657860fedf5c570d18_2199c870db8ec93f =
    some (.invround 0xa65d9851797832657860fedf5c570d18 0x2199c870db8ec93f) := by decide +kernel

/-- The encodings of V53, V55, V56 and V57, and the last OP of all. -/
theorem test_decode_illegal : decode { op := 0x06, a := 0, k := 1 } = .error .unassignedFunc ∧
    decode { op := 0x12, a := 0, k := 0 } = .error .reservedBits ∧
    decode { op := 0x82, a := 0, k := 0 } = .error .reservedBits ∧
    decode { op := 0xf1, a := 0, k := 0 } = .error .reservedBits ∧
    decode { op := 0xff, a := 0, k := 0 } = .error .reservedBits := by decide +kernel

/-- A word shorter than the format has zeros above: OP = 0x00 is illegal (R60). -/
theorem test_decode_short_word : decodeTableWord 192 0x01_0f0e0d0c0b0a09080706050403020100_0000000000000000 = none := by
  decide +kernel

/-! ## One step -/

/-- The pending response after one step. -/
def responseOf (o : Host.Outcome State Fault Refusal) : Option Response :=
  match o with
  | .next t => t.pending
  | .fault _ => none
  | .refused _ => none

/-- A round-key register after one step. -/
def roundKeyOf (i : Fin 32) (o : Host.Outcome State Fault Refusal) : Option Word :=
  match o with
  | .next t => some t.rk[i]
  | .fault _ => none
  | .refused _ => none

/-- KEYED, and the STATUS port, after one step. -/
def statusOf (o : Host.Outcome State Fault Refusal) : Option (Bool × BitVec 8) :=
  match o with
  | .next t => some (t.keyed, t.statusPort)
  | .fault _ => none
  | .refused _ => none

/-- The block after the KEYSET of the key `k1 || k2`. -/
def keyedBy (k1 k2 : Word) : State := { State.reset with rk := keySchedule k1 k2, keyed := true }

/-- The block keyed with V1's key. -/
def keyedV1 : State := keyedBy 0x0f0e0d0c0b0a0908 0x0706050403020100

/-- V30, V59: entries of the schedule, and the answer. -/
theorem test_keyset_v30 :
    roundKeyOf 1 (step (State.reset.presenting { op := 0x01, a := 0x0f0e0d0c0b0a09080706050403020100, k := 0 })) =
      some 0x37253b31171d0309 ∧
    roundKeyOf 31 (step (State.reset.presenting { op := 0x01, a := 0x0f0e0d0c0b0a09080706050403020100, k := 0 })) =
      some 0x2199c870db8ec93f ∧
    responseOf (step (State.reset.presenting { op := 0x01, a := 0x0f0e0d0c0b0a09080706050403020100, k := 0 })) =
      some { status := 0b00, data := 0 } := by decide +kernel

/-- V33 and V46: the key's halves are not swapped, a second KEYSET replaces the schedule, and K is ignored. -/
theorem test_keyset_v33 :
    roundKeyOf 2 (step (keyedV1.presenting { op := 0x01, a := 0x00000000000000010000000000000000, k := 0x0123456789abcdef })) =
      some 0x0901000000000001 ∧
    roundKeyOf 31 (step (keyedV1.presenting { op := 0x01, a := 0x00000000000000010000000000000000, k := 0 })) =
      some 0xc3ba41fd22da1895 := by decide +kernel

/-- V1 with V46's K, and V44. -/
theorem test_encrypt_v1_v44 :
    responseOf (step (keyedV1.presenting { op := 0x02, a := 0x6c617669757165207469206564616d20, k := 0xffffffffffffffff })) =
      some { status := 0b00, data := 0xa65d9851797832657860fedf5c570d18 } ∧
    responseOf (step ((keyedBy 0 1).presenting { op := 0x02, a := 0, k := 0 })) =
      some { status := 0b00, data := 0x53a74e35dd73c751b4094e6431caa87d } := by decide +kernel

/-- V2, and the decryption column of V45. -/
theorem test_decrypt_v2_v45 :
    responseOf (step (keyedV1.presenting { op := 0x03, a := 0xa65d9851797832657860fedf5c570d18, k := 0 })) =
      some { status := 0b00, data := 0x6c617669757165207469206564616d20 } ∧
    responseOf (step ((keyedBy 1 0).presenting { op := 0x03, a := 0, k := 0 })) =
      some { status := 0b00, data := 0x3586e2a37208d520634cbb5e544d67bd } := by decide +kernel

/-- V50, V51: KEYED = 0. -/
theorem test_noKey_v50_v51 :
    responseOf (step (State.reset.presenting { op := 0x02, a := 0x6c617669757165207469206564616d20, k := 0 })) =
      some { status := 0b10, data := 0 } ∧
    responseOf (step (State.reset.presenting { op := 0x03, a := 0xa65d9851797832657860fedf5c570d18, k := 0 })) =
      some { status := 0b10, data := 0 } := by decide +kernel

/-- V12 and V19: the new x', and x = y = k. -/
theorem test_round_v12_v19 :
    responseOf (step (State.reset.presenting { op := 0x04, a := 0x00000000000000010000000000000000, k := 0 })) =
      some { status := 0b00, data := 0x01000000000000000100000000000000 } ∧
    responseOf (step (State.reset.presenting
      { op := 0x04, a := 0x0123456789abcdef0123456789abcdef, k := 0x0123456789abcdef })) =
      some { status := 0b00, data := 0xf1072dcb789eb453f81d06f735c0db2b } := by decide +kernel

/-- V24 and V28: borrows. -/
theorem test_invround_v24_v28 :
    responseOf (step (State.reset.presenting { op := 0x05, a := 0x00000000000000000000000000000001, k := 0 })) =
      some { status := 0b00, data := 0x00000000000000e02000000000000000 } ∧
    responseOf (step (State.reset.presenting
      { op := 0x05, a := 0xa65d9851797832657860fedf5c570d18, k := 0x2199c870db8ec93f })) =
      some { status := 0b00, data := 0xfca34fde51136bcbbbc7acd1c4a5e7ef } := by decide +kernel

/-- V55, V56: an illegal OP whose FUNC is ENCRYPT, keyed and not. -/
theorem test_illegal_v55_v56 :
    responseOf (step (keyedV1.presenting { op := 0x12, a := 0x6c617669757165207469206564616d20, k := 0 })) =
      some { status := 0b01, data := 0 } ∧
    responseOf (step (State.reset.presenting { op := 0x82, a := 0x6c617669757165207469206564616d20, k := 0 })) =
      some { status := 0b01, data := 0 } := by decide +kernel

/-- V57: an illegal OP whose FUNC is KEYSET leaves KEYED = 0; the response is pending, so BUSY = 1 (R27). -/
theorem test_illegal_v57 :
    statusOf (step (State.reset.presenting { op := 0xf1, a := 0x0f0e0d0c0b0a09080706050403020100, k := 0 })) =
      some (false, 0x02) := by decide +kernel

/-- P6 step 1: reset clears KEYED and STATUS is 0x00, while a response is pending too (R151). -/
theorem test_reset_p6 :
    statusOf (step { keyedV1 with phase := .holding .encrypt { status := 0, data := 1 }, inputs := [PortIn.reset] }) =
      some (false, 0x00) ∧
    roundKeyOf 31 (step { keyedV1 with phase := .holding .encrypt { status := 0, data := 1 }, inputs := [PortIn.reset] }) =
      some 0x2199c870db8ec93f := by decide +kernel

/-- R27, P1: with the response consumed STATUS is 0x01 on a keyed block; until then it is 0x03. -/
theorem test_status_p1 :
    statusOf (step { keyedV1 with phase := .holding .encrypt { status := 0, data := 1 }, inputs := [PortIn.consume] }) =
      some (true, 0x01) ∧
    statusOf (step { keyedV1 with phase := .holding .encrypt { status := 0, data := 1 } }) = some (true, 0x03) := by
  decide +kernel

/-! ## Assembly text (R63, R64, and the lines of P1, P2 and P4) -/

theorem test_assemble_p4 :
    assembleLine "ROUND A=0x40345044282c1015f91d89cc90c4085c, K=0x0000000000000002".toList =
      some { op := 0x04, a := 0x40345044282c1015f91d89cc90c4085c, k := 2 } ∧
    assembleLine "ECB.DECRYPT A=0xa65d98517978_32657860fedf5c570d18".toList =
      some { op := 0x03, a := 0xa65d9851797832657860fedf5c570d18, k := 0 } ∧
    assembleLine ".cmd OP=0x83, A=0xa65d9851797832657860fedf5c570d18".toList =
      some { op := 0x83, a := 0xa65d9851797832657860fedf5c570d18, k := 0 } ∧
    assembleLine "ROUNDXY 0x1, 0x2, 0x3".toList = some { op := 0x04, a := 0x00000000000000010000000000000002, k := 3 } ∧
    assembleLine "KEYSET".toList = some { op := 0x01, a := 0, k := 0 } ∧
    assembleLine "ROUND K=0x10000000000000000".toList = none := by decide +kernel

/-- The listing form of R63's own example. -/
theorem test_listing_r63 :
    listing { op := 0x02, a := 0x6c617669757165207469206564616d20, k := 0 } =
      "02 6c617669757165207469206564616d20 0000000000000000".toList := by decide +kernel

/-! ## Witnesses: the hypotheses of each statement can be met -/

/-- A command whose OP is the given one. -/
def cmdOf (op : BitVec 8) : Command := { op := op, a := 0x6c617669757165207469206564616d20, k := 1 }

theorem wit_DecodeEncodeAgree : decodeWord 0x05_a65d9851797832657860fedf5c570d18_2199c870db8ec93f =
    .ok (.invround 0xa65d9851797832657860fedf5c570d18 0x2199c870db8ec93f) := by decide +kernel

theorem wit_CommandWordFields : decode (cmdOf 0x01) = .ok (.keyset 0x6c617669757165207469206564616d20 1) := by
  decide +kernel

/-- Every clause of DecodeByOpcodeByte and of StepFunctionOfSpec, the illegal one at both ends of its two ranges. -/
theorem wit_DecodeByOpcodeByte :
    [0x01, 0x02, 0x03, 0x04, 0x05, 0x00, 0x06, 0x0f, 0x10, 0xff].map (fun op => decodeKind (cmdOf op)) =
      [.keyset, .encrypt, .decrypt, .round, .invround, .illegal, .illegal, .illegal, .illegal, .illegal] := by
  decide +kernel

theorem wit_IllegalCommandAnswer : decodeKind (cmdOf 0x06) = .illegal ∧
    (State.reset.presenting (cmdOf 0x06)).phase = .idle ∧
    (State.reset.presenting (cmdOf 0x06)).port = PortIn.command (cmdOf 0x06) := by decide +kernel

theorem wit_IgnoredFieldsHaveNoEffect : (6 : Nat) ≤ (0x06#8).toNat ∧ State.reset.keyed = false := by decide +kernel

theorem wit_RotationsAreCircular : (0 < 1 ∧ 1 < 64) ∧ (0 < 63 ∧ 63 < 64) := by decide

/-- The working pairs of the key schedule of `(k1, k2)`. -/
def workingPair (k1 k2 : Word) : Nat → Word × Word
  | 0 => (k1, k2)
  | i + 1 => roundF (workingPair k1 k2 i).1 (workingPair k1 k2 i).2 (BitVec.ofNat 64 i)

theorem wit_KeyScheduleRecurrence : workingPair 1 2 0 = (1, 2) ∧
    ∀ i, i < 32 → workingPair 1 2 (i + 1) = roundF (workingPair 1 2 i).1 (workingPair 1 2 i).2 (BitVec.ofNat 64 i) :=
  ⟨rfl, fun _ _ => rfl⟩

/-- The pairs of the rounds under the schedule `S`. -/
def roundPair (S : Vector Word 32) (p : Block) : Nat → Word × Word
  | 0 => (p.extractLsb' 64 64, p.extractLsb' 0 64)
  | i + 1 => roundF (roundPair S p i).1 (roundPair S p i).2 (S[i]?.getD 0)

theorem wit_EncryptIsThirtyTwoRounds (S : Vector Word 32) (p : Block) :
    roundPair S p 0 = (p.extractLsb' 64 64, p.extractLsb' 0 64) ∧
    ∀ (i : Nat) (h : i < 32), roundPair S p (i + 1) = roundF (roundPair S p i).1 (roundPair S p i).2 S[i] :=
  ⟨rfl, fun i h => by rw [roundPair, Vector.getElem?_eq_getElem h]; rfl⟩

/-- The pairs of the inverse rounds under `S`, counted from the last round. -/
def inversePair (S : Vector Word 32) (c : Block) : Nat → Word × Word
  | 0 => (c.extractLsb' 64 64, c.extractLsb' 0 64)
  | j + 1 => invRoundF (inversePair S c j).1 (inversePair S c j).2 (S[31 - j]?.getD 0)

theorem wit_DecryptIsThirtyTwoInverseRounds (S : Vector Word 32) (c : Block) :
    (fun i => inversePair S c (32 - i)) 32 = (c.extractLsb' 64 64, c.extractLsb' 0 64) ∧
    ∀ (i : Nat) (h : i < 32), (fun i => inversePair S c (32 - i)) i =
      invRoundF ((fun i => inversePair S c (32 - i)) (i + 1)).1 ((fun i => inversePair S c (32 - i)) (i + 1)).2 S[i] := by
  refine ⟨rfl, fun i h => ?_⟩
  have h1 : 32 - i = (32 - (i + 1)) + 1 := by omega
  have h2 : 31 - (32 - (i + 1)) = i := by omega
  simp only
  rw [h1, inversePair, h2, Vector.getElem?_eq_getElem h]
  rfl

theorem wit_KeysetResult : ∃ t, exec (.keyset 5 7) State.reset = .next t := ⟨_, rfl⟩

theorem wit_InvroundResult : ∃ t d, exec (.round 5 7) State.reset = .next t ∧
    t.pending = some { status := 0b00, data := d } := ⟨_, _, rfl, rfl⟩

theorem wit_EncryptResult : keyedV1.keyed = true ∧ State.reset.keyed = false := ⟨rfl, rfl⟩

theorem wit_DecryptResult : keyedV1.keyed = true ∧
    (∃ t d, exec (.encrypt 5 7) keyedV1 = .next t ∧ t.pending = some { status := 0b00, data := d }) ∧
    (∃ t d, exec (.decrypt 5 7) keyedV1 = .next t ∧ t.pending = some { status := 0b00, data := d }) :=
  ⟨rfl, ⟨_, _, rfl, rfl⟩, ⟨_, _, rfl, rfl⟩⟩

theorem wit_RoundCommandsArePure : (Instr.round 5 7).kind = .round ∧ (Instr.invround 5 7).kind = .invround := ⟨rfl, rfl⟩

theorem wit_EveryOperationCompletesOk : (Instr.encrypt 5 7).kind = .encrypt ∧ keyedV1.keyed = true := ⟨rfl, rfl⟩

/-- The operands A of a chain of 32 ROUND, or INVROUND, commands with the round keys `k`. -/
def chain (f : Word → Word → Word → Word × Word) (k : Nat → Word) (a : Block) : Nat → Block
  | 0 => a
  | i + 1 => join (f (highHalf (chain f k a i)) (lowHalf (chain f k a i)) (k i)).1
      (f (highHalf (chain f k a i)) (lowHalf (chain f k a i)) (k i)).2

theorem wit_EncryptEqualsRoundCommands : keyedV1.keyed = true ∧
    (∃ a : Nat → Block, a 0 = 5 ∧ ∀ (i : Nat) (h : i < 32), ∃ t, exec (.round (a i) keyedV1.rk[i]) State.reset = .next t ∧
      t.pending = some { status := 0b00, data := a (i + 1) }) ∧
    (∃ a : Nat → Block, a 0 = 5 ∧ ∀ (i : Nat) (h : i < 32),
      ∃ t, exec (.invround (a i) keyedV1.rk[31 - i]) State.reset = .next t ∧
        t.pending = some { status := 0b00, data := a (i + 1) }) := by
  refine ⟨rfl, ⟨chain roundF (fun i => keyedV1.rk[i]?.getD 0) 5, rfl, fun i h => ⟨_, rfl, ?_⟩⟩,
    ⟨chain invRoundF (fun i => keyedV1.rk[31 - i]?.getD 0) 5, rfl, fun i h => ⟨_, rfl, ?_⟩⟩⟩
  · rw [chain, Vector.getElem?_eq_getElem h]; rfl
  · rw [chain, Vector.getElem?_eq_getElem (show 31 - i < 32 by omega)]; rfl

theorem wit_HostDrivenKeySchedule : (∃ t, exec (.keyset 5 0) State.reset = .next t) ∧
    ∃ a : Nat → Block, a 0 = 5 ∧ ∀ i, i < 32 → ∃ u, exec (.round (a i) (BitVec.ofNat 64 i)) State.reset = .next u ∧
      u.pending = some { status := 0b00, data := a (i + 1) } :=
  ⟨⟨_, rfl⟩, chain roundF (BitVec.ofNat 64) 5, rfl, fun _ _ => ⟨_, rfl, rfl⟩⟩

theorem wit_ErrorPriority : decodeKind (cmdOf 0x82) = .illegal ∧ State.reset.keyed = false ∧
    decodeKind (cmdOf 0x02) = .encrypt ∧ decodeKind (cmdOf 0x03) = .decrypt ∧ decodeKind (cmdOf 0x01) = .keyset ∧
    decodeKind (cmdOf 0x04) = .round ∧ decodeKind (cmdOf 0x05) = .invround ∧
    State.port { State.reset with inputs := [PortIn.reset] } = PortIn.reset := by decide +kernel

/-- ROUND, an illegal command and INVROUND are no KEYSET: the sequences of the statements about responses exist. -/
theorem wit_RepeatedCommandSameResponse : decodeKind (cmdOf 0x02) ≠ .keyset ∧
    ∀ d ∈ [cmdOf 0x04, cmdOf 0x06, cmdOf 0x05], decodeKind d ≠ .keyset := by decide +kernel

theorem wit_StepRunsDecodedInstruction : (State.reset.presenting (cmdOf 0x04)).phase = .idle ∧
    (State.reset.presenting (cmdOf 0x04)).port.rst = false ∧
    (State.reset.presenting (cmdOf 0x04)).port.cmdValid = true ∧
    decode (State.reset.presenting (cmdOf 0x04)).port.cmd = .ok (.round 0x6c617669757165207469206564616d20 1) := by
  decide +kernel

theorem wit_FetchWordRunsNext : decodeTableWord 200 0x01_00000000000000000000000000000005_0000000000000007 =
    some (.keyset 5 7) := by decide +kernel

theorem wit_ScriptedCommandGivesItsResponse :
    State.inputs { State.reset with inputs := [PortIn.command (cmdOf 0x04), PortIn.consume] } =
      PortIn.command (cmdOf 0x04) :: PortIn.consume :: [] ∧
    State.phase { State.reset with inputs := [PortIn.command (cmdOf 0x04), PortIn.consume] } = .idle := ⟨rfl, rfl⟩

/-- A KEYSET sets KEYED. -/
theorem wit_OnlyKeysetWritesState : ∃ t, (State.reset.presenting (cmdOf 0x01)).port.rst = false ∧
    step (State.reset.presenting (cmdOf 0x01)) = .next t ∧ State.reset.keyed = false ∧ t.keyed = true := by
  refine ⟨((State.reset.presenting (cmdOf 0x01)).popInput.loadSchedule
    (keySchedule (highHalf (cmdOf 0x01).a) (lowHalf (cmdOf 0x01).a))).respond .keyset statusOk 0, rfl, ?_, rfl, rfl⟩
  rw [step_of_command rfl rfl rfl]
  exact runCommand_of_ok wit_CommandWordFields _

/-- Reset clears it. -/
theorem wit_KeyedFlagTransitions : ∃ t, step { keyedV1 with inputs := [PortIn.reset] } = .next t ∧
    keyedV1.keyed = true ∧ t.keyed = false := ⟨_, step_of_rst rfl, rfl, rfl⟩

theorem keyedV1_inv : keyedV1.Inv where
  schedule _ := ⟨_, _, rfl⟩
  response := by intro kind r h; cases h
  wait := by intro c w h; cases h

theorem wit_StepKeepsInvariant : keyedV1.Inv ∧ ∃ t, step keyedV1 = .next t := ⟨keyedV1_inv, _, step_of_idle rfl rfl rfl⟩

theorem wit_CycleKeepsInvariant : keyedV1.Inv ∧ ∃ t, cycle keyedV1 = .next t := ⟨keyedV1_inv, _, rfl⟩

theorem wit_ResetCycleClears : State.port { keyedV1 with inputs := [PortIn.reset] } = PortIn.reset := rfl

/-- A reset while an ENCRYPT runs, and while the response of a KEYSET is held. -/
theorem wit_ResetAbortsCommand :
    (State.busy { keyedV1 with phase := .running (cmdOf 0x02) 3, inputs := [PortIn.reset] } = true ∧
      decodeKind (cmdOf 0x02) ∈ [Kind.encrypt, .decrypt, .round, .invround] ∧
      ∃ t, cycle { keyedV1 with phase := .running (cmdOf 0x02) 3, inputs := [PortIn.reset] } = .next t) ∧
    (State.busy { keyedV1 with phase := .holding .keyset { status := 0, data := 0 }, inputs := [PortIn.reset] } = true ∧
      ∃ t, step { keyedV1 with phase := .holding .keyset { status := 0, data := 0 }, inputs := [PortIn.reset] } = .next t) :=
  ⟨⟨rfl, by decide +kernel, _, cycle_of_rst rfl⟩, rfl, _, step_of_rst rfl⟩

theorem wit_UnkeyedRoundKeysUnobservable : State.reset.keyed = false ∧
    (Vector.replicate 32 (1 : Word)) ≠ State.reset.rk := by decide +kernel

/-- The clauses of StatusPort: a ready block with a command, a busy one without reset, an idle one without a command. -/
theorem wit_StatusPort : (State.reset.presenting (cmdOf 0x06)).cmdReady = true ∧
    (State.reset.presenting (cmdOf 0x06)).port.cmdValid = true ∧
    State.busy { State.reset with phase := .running (cmdOf 0x06) 2 } = true ∧
    State.reset.port.rst = false ∧ State.reset.busy = false ∧ State.reset.port.cmdValid = false := by decide +kernel

/-- The cycles between the acceptance of a command by the block after reset and its response, with nothing driven. -/
def waiting (c : Command) : List PortIn := List.replicate (latencyOf c State.reset - 1) PortIn.low

theorem waiting_length (c : Command) : (waiting c).length + 1 = latencyOf c State.reset := by
  have := latencyOf_pos c State.reset
  simp only [waiting, List.length_replicate]
  omega

theorem waiting_low (c : Command) : ∀ q ∈ waiting c, q.rst = false := by
  intro q h
  rw [List.eq_of_mem_replicate h]
  rfl

theorem wit_Handshake (c : Command) :
    ∃ s : State, s.inputs = PortIn.command c :: (waiting c ++ [PortIn.consume]) ∧ s.cmdReady = true ∧
      (PortIn.command c).cmdValid = true ∧ (∀ q ∈ waiting c, q.rst = false) ∧
      (waiting c).length + 1 = latencyOf (PortIn.command c).cmd s :=
  ⟨{ State.reset with inputs := PortIn.command c :: (waiting c ++ [PortIn.consume]) }, rfl, rfl, rfl, waiting_low c,
    waiting_length c⟩

/-- A held response, offered to a host that is not ready, and to one that is. -/
theorem wit_Handshake_held : ∃ s t : State, s.rspValid = true ∧ s.port.rst = false ∧ s.port.rspReady = false ∧
    t.rspValid = true ∧ t.port.rst = false ∧ t.port.rspReady = true :=
  ⟨{ State.reset with phase := .holding .round { status := 0, data := 0 } },
    { State.reset with phase := .holding .round { status := 0, data := 0 }, inputs := [PortIn.consume] },
    rfl, rfl, rfl, rfl, rfl, rfl⟩

/-- A block that is not ready, with two different commands on its port; and an idle block with no command. -/
theorem wit_Handshake_fields : ∃ (s : State) (p q : PortIn), s.inputs = [p] ∧ s.cmdReady = false ∧ q.rst = p.rst ∧
    q.rspReady = p.rspReady ∧ q ≠ p ∧ State.reset.busy = false ∧ State.reset.port.cmdValid = false :=
  ⟨{ State.reset with phase := .holding .round { status := 0, data := 0 }, inputs := [PortIn.low] }, PortIn.low,
    PortIn.command { op := 1, a := 2, k := 3 }, rfl, rfl, rfl, rfl, by decide, rfl, rfl⟩

theorem wit_SignalLevelRefinesTransaction (c : Command) :
    ∃ (s : State) (ws : List PortIn), s.phase = .idle ∧
      s.inputs = PortIn.command c :: (waiting c ++ (ws ++ PortIn.consume :: [])) ∧ (PortIn.command c).rst = false ∧
      (PortIn.command c).cmdValid = true ∧ (∀ w ∈ waiting c, w.rst = false) ∧
      (waiting c).length + 1 = latencyOf (PortIn.command c).cmd s ∧ (∀ w ∈ ws, w.rst = false ∧ w.rspReady = false) ∧
      PortIn.consume.rst = false ∧ PortIn.consume.rspReady = true ∧ ws ≠ [] :=
  ⟨{ State.reset with inputs := PortIn.command c :: (waiting c ++ ([PortIn.low] ++ PortIn.consume :: [])) }, [PortIn.low],
    rfl, rfl, rfl, rfl, waiting_low c, waiting_length c, by simp [PortIn.low], rfl, rfl, by simp⟩

theorem wit_LatencyIsDataIndependent : State.reset.keyed ≠ keyedV1.keyed ∧ (0x04#8 ≠ 0x02#8 ∧ 0x04#8 ≠ 0x03#8) ∧
    (6 : Nat) ≤ (0xff#8).toNat := by decide +kernel

theorem wit_ResponseHeldIndefinitely : ∃ (s : State) (ws : List PortIn), s.rspValid = true ∧ s.inputs = ws ++ [PortIn.consume] ∧
    (∀ w ∈ ws, w.rst = false ∧ w.rspReady = false) ∧ ws ≠ [] :=
  ⟨{ State.reset with phase := .holding .round { status := 0, data := 0 }, inputs := [PortIn.low, PortIn.consume] },
    [PortIn.low], rfl, rfl, by simp [PortIn.low], by simp⟩

theorem wit_RunEnds :
    (∃ (s : State) (c : Command) (ps : List PortIn), s.phase = .running c 1 ∧ s.inputs = ps ++ [] ∧ ps.length = 1 + 1 ∧
      (∀ p ∈ ps, p.rst = false ∧ p.rspReady = true)) ∧
    (∃ (s : State) (ps : List PortIn), s.phase = .idle ∧ s.inputs = ps ++ [] ∧
      (∀ p ∈ ps, p.rst = false ∧ p.cmdValid = false) ∧ ps ≠ []) :=
  ⟨⟨{ State.reset with phase := .running (cmdOf 4) 1, inputs := [PortIn.consume, PortIn.consume] }, cmdOf 4,
      [PortIn.consume, PortIn.consume], rfl, rfl, rfl, by simp [PortIn.consume, PortIn.low]⟩,
    ⟨{ State.reset with inputs := [PortIn.low] }, [PortIn.low], rfl, rfl, by simp [PortIn.low], by simp⟩⟩

theorem wit_HexLiteralReadBack : 0 < 16 ∧ 0xffffffffffffffff < 16 ^ 16 := by decide +kernel

end Sys2Proof.Tests
end

section
/-! The words of the block as numbers: what the rotations, SPLIT and JOIN compute (00_scope.md R10, R11), and the statements
about them. -/

namespace Sys2Proof.Machine

/-! ## Rotations -/

/-- Below the width of a word, the library's amount modulo 64 is the amount itself, and the two formulas are the same. -/
theorem ror64_eq_rotateRight (v : Word) {r : Nat} (h : r < 64) : ror64 v r = v.rotateRight r :=
  (BitVec.rotateRight_eq_rotateRightAux_of_lt h).symm

theorem rol64_eq_rotateLeft (v : Word) {r : Nat} (h : r < 64) : rol64 v r = v.rotateLeft r :=
  (BitVec.rotateLeft_eq_rotateLeftAux_of_lt h).symm

/-- Settles O8: each formula of R10 is the library's rotation by an amount below the width. -/
theorem rotationsAreCircular : Obligations.RotationsAreCircular :=
  fun v _ _ h => ⟨ror64_eq_rotateRight v h, rol64_eq_rotateLeft v h⟩

/-! ## SPLIT and JOIN -/

theorem highHalf_toNat (v : Block) : (highHalf v).toNat = v.toNat / 2 ^ 64 := by
  have hlt : v.toNat / 2 ^ 64 < 2 ^ 64 := Nat.div_lt_of_lt_mul v.isLt
  rw [highHalf, BitVec.extractLsb'_toNat, Nat.shiftRight_eq_div_pow, Nat.mod_eq_of_lt hlt]

theorem lowHalf_toNat (v : Block) : (lowHalf v).toNat = v.toNat % 2 ^ 64 := by
  rw [lowHalf, BitVec.extractLsb'_toNat, Nat.shiftRight_zero]

/-- The OR of the two halves in R11 is their sum, because the low half is below the lowest bit of the shifted high half. -/
theorem join_toNat (hi lo : Word) : (join hi lo).toNat = hi.toNat * 2 ^ 64 + lo.toNat := by
  rw [join, BitVec.toNat_append, ← Nat.shiftLeft_add_eq_or_of_lt lo.isLt, Nat.shiftLeft_eq]

/-- The halves of a block are the quotient and the remainder by `2 ^ 64`, so JOIN of them is the block. -/
@[simp] theorem join_highHalf_lowHalf (v : Block) : join (highHalf v) (lowHalf v) = v := by
  apply BitVec.eq_of_toNat_eq
  rw [join_toNat, highHalf_toNat, lowHalf_toNat, Nat.div_add_mod']

@[simp] theorem split_join (hi lo : Word) : split (join hi lo) = (hi, lo) :=
  Prod.ext (highHalf_join hi lo) (lowHalf_join hi lo)

/-- Settles O9: the arithmetic of the halves and of JOIN, and the two inverse laws that follow. -/
theorem splitJoinInverse : Obligations.SplitJoinInverse :=
  ⟨fun v => ⟨highHalf_toNat v, lowHalf_toNat v, join_highHalf_lowHalf v⟩,
    fun hi lo => ⟨join_toNat hi lo, split_join hi lo⟩⟩

end Sys2Proof.Machine
end

section
/-! The state of 10_state.md: what one transition of the block can do at either level, the invariant it keeps, and what of the
round-key file can be observed. -/

namespace Sys2Proof.Machine

/-! ## A clock cycle, case by case -/

section Cycle
variable {s : State} (hr : s.port.rst = false)
include hr

theorem cycle_of_idle (hp : s.phase = .idle) (hv : s.port.cmdValid = false) : cycle s = .next s.popInput := by
  simp [cycle, hr, hp, hv]

theorem cycle_of_command (hp : s.phase = .idle) (hv : s.port.cmdValid = true) :
    cycle s = progress s.port.cmd (latencyOf s.port.cmd s - 1) s.popInput := by
  simp [cycle, hr, hp, hv]

theorem cycle_of_running {c : Command} {w : Nat} (hp : s.phase = .running c w) :
    cycle s = progress c (w - 1) s.popInput := by
  simp [cycle, hr, hp]

theorem cycle_of_holding {k : Kind} {r : Response} (hp : s.phase = .holding k r) :
    cycle s = .next (s.popInput.offerResponse s.port.rspReady) := by
  simp [cycle, hr, hp]

end Cycle

/-! ## The answer of a command -/

section Legal
variable {kind : Kind} {keyed : Bool}

theorem Response.legal_ok {data : Block} (hi : kind ≠ .illegal) (hs : kind = .keyset → data = 0 ∧ keyed = true)
    (hc : kind = .encrypt ∨ kind = .decrypt → keyed = true) :
    Response.Legal kind keyed { status := statusOk, data := data } where
  neverReserved := (by decide : statusOk ≠ statusReserved)
  errorHasNoData h := absurd rfl h
  keysetHasNoData h := (hs h).1
  illegalIff := ⟨fun h => absurd h (by decide : statusOk ≠ statusErrIllegal), fun h => absurd h hi⟩
  noKeyIff := ⟨fun h => absurd h (by decide : statusOk ≠ statusErrNoKey), fun ⟨h, hk⟩ => by simp [hc h] at hk⟩
  keysetKeyed h := (hs h).2

theorem Response.legal_noKey (h : kind = .encrypt ∨ kind = .decrypt) :
    Response.Legal kind false { status := statusErrNoKey, data := 0 } where
  neverReserved := by decide
  errorHasNoData _ := rfl
  keysetHasNoData _ := rfl
  illegalIff := ⟨fun hs => absurd hs (by decide), fun hi => by simp [hi] at h⟩
  noKeyIff := ⟨fun _ => ⟨h, rfl⟩, fun _ => rfl⟩
  keysetKeyed hk := by simp [hk] at h

theorem Response.legal_illegal : Response.Legal .illegal keyed { status := statusErrIllegal, data := 0 } where
  neverReserved := by decide
  errorHasNoData _ := rfl
  keysetHasNoData _ := rfl
  illegalIff := ⟨fun _ => rfl, fun _ => rfl⟩
  noKeyIff := ⟨fun h => absurd h (by decide), fun ⟨h, _⟩ => by simp at h⟩
  keysetKeyed h := by simp at h

end Legal

/-- An instruction answers legally: ERR_NOKEY exactly for ENCRYPT and DECRYPT without a key, and OK otherwise. -/
theorem exec_answer (i : Instr) (s : State) : ∃ t r, exec i s = .next t ∧ t.phase = .holding i.kind r ∧
    r.Legal i.kind t.keyed := by
  cases i with
  | keyset a k =>
    exact ⟨_, _, exec_keyset a k s, rfl, Response.legal_ok nofun (fun _ => ⟨rfl, rfl⟩) (fun _ => rfl)⟩
  | encrypt a k =>
    cases hk : s.keyed with
    | true =>
      exact ⟨_, _, exec_encrypt_keyed a k hk, rfl,
        Response.legal_ok nofun nofun (fun _ => hk)⟩
    | false =>
      refine ⟨_, _, exec_encrypt_unkeyed a k hk, rfl, ?_⟩
      rw [State.respond_keyed, hk]
      exact Response.legal_noKey (.inl rfl)
  | decrypt a k =>
    cases hk : s.keyed with
    | true =>
      exact ⟨_, _, exec_decrypt_keyed a k hk, rfl,
        Response.legal_ok nofun nofun (fun _ => hk)⟩
    | false =>
      refine ⟨_, _, exec_decrypt_unkeyed a k hk, rfl, ?_⟩
      rw [State.respond_keyed, hk]
      exact Response.legal_noKey (.inr rfl)
  | round a k =>
    exact ⟨_, _, exec_round a k s, rfl,
      Response.legal_ok nofun nofun nofun⟩
  | invround a k =>
    exact ⟨_, _, exec_invround a k s, rfl,
      Response.legal_ok nofun nofun nofun⟩

/-- Every command, illegal ones included, answers legally. -/
theorem runCommand_answer (c : Command) (s : State) : ∃ t r, runCommand c s = .next t ∧
    t.phase = .holding (decodeKind c) r ∧ r.Legal (decodeKind c) t.keyed := by
  cases h : decode c with
  | ok i => simpa only [runCommand_of_ok h, decodeKind_of_ok h] using exec_answer i s
  | error e =>
    rw [runCommand_of_error h, decodeKind_of_error h]
    exact ⟨_, _, rfl, rfl, Response.legal_illegal⟩

section Completion
variable {c : Command} {s t : State} (h : runCommand c s = .next t)
include h

/-- Only a KEYSET writes RK and KEYED, and what it leaves is a key's schedule and its response. -/
theorem runCommand_registers :
    (t.rk = s.rk ∧ t.keyed = s.keyed) ∨
    (t.phase = .holding .keyset { status := statusOk, data := 0 } ∧ t.keyed = true ∧ ∃ k1 k2, t.rk = keySchedule k1 k2) := by
  obtain ⟨e, d, ⟨-, h'⟩ | ⟨-, h'⟩⟩ := runCommand_cases c s <;> cases h.symm.trans h'
  · exact .inl ⟨rfl, rfl⟩
  · exact .inr ⟨rfl, rfl, _, _, rfl⟩

theorem runCommand_establishes_inv (hs : s.ScheduleLoaded) : t.Inv := by
  obtain ⟨_, r, h', hp, hl⟩ := runCommand_answer c s
  cases h.symm.trans h'
  refine ⟨fun hk => ?_, fun kind r' hp' => ?_, fun c w hp' => ?_⟩
  · obtain ⟨hrk, hkeyed⟩ | ⟨-, -, hS⟩ := runCommand_registers h
    · exact hrk ▸ hs (hkeyed ▸ hk)
    · exact hS
  · cases hp.symm.trans hp'
    exact hl
  · cases hp.symm.trans hp'

end Completion

/-! ## A transition at either level -/

/-- Every transition of the block, at the transaction level or at the signal level, is one of these. They bound what either
level does; which command runs, and when, is said by `step_cases` and `cycle_cases`. -/
inductive Transition (s : State) : State → Prop where
  /-- `rst` = 1. -/
  | reset (hr : s.port.rst = true) : Transition s s.popInput.resetCycle
  /-- Nothing but the inputs changes: an idle block without a command, or a held response that the host does not take. -/
  | stay (hr : s.port.rst = false) : Transition s s.popInput
  /-- The host takes the held response. -/
  | consume (hr : s.port.rst = false) : Transition s s.popInput.consume
  /-- A cycle of a command, just accepted or already running, that is not its last one. -/
  | run (hr : s.port.rst = false) (c : Command) (w : Nat)
      (hw : w + 1 < latencyOf c s ∨ ∃ v, s.phase = .running c v ∧ w + 1 < v) :
      Transition s { s.popInput with phase := .running c (w + 1) }
  /-- A command completes. -/
  | complete (hr : s.port.rst = false) (c : Command) {t : State} (ht : runCommand c s.popInput = .next t) : Transition s t

theorem transition_offerResponse {s : State} (hr : s.port.rst = false) (ready : Bool) :
    Transition s (s.popInput.offerResponse ready) := by
  cases ready with
  | true => exact .consume hr
  | false => exact .stay hr

theorem transition_of_step {s t : State} (h : step s = .next t) : Transition s t := by
  obtain ⟨hr, h'⟩ | ⟨hr, ⟨-, -, h'⟩ | ⟨-, -, h'⟩ | ⟨c, w, -, h'⟩ | ⟨k, r, -, h'⟩⟩ := step_cases s <;> rw [h'] at h
  · cases h
    exact .reset hr
  · cases h
    exact .stay hr
  · exact .complete hr _ h
  · exact .complete hr c h
  · cases h
    exact transition_offerResponse hr _

/-- A command with `w` cycles to go completes, or runs on with `w`, which is below what it had. -/
theorem transition_of_progress {s t : State} {c : Command} {w : Nat} (hr : s.port.rst = false)
    (hw : 0 < w → w < latencyOf c s ∨ ∃ v, s.phase = .running c v ∧ w < v) (h : progress c w s.popInput = .next t) :
    Transition s t := by
  cases w with
  | zero => exact .complete hr c h
  | succ w =>
    cases h
    exact .run hr c w (hw w.succ_pos)

theorem transition_of_cycle {s t : State} (h : cycle s = .next t) : Transition s t := by
  obtain ⟨hr, h'⟩ | ⟨hr, ⟨-, -, h'⟩ | ⟨-, -, h'⟩ | ⟨c, w, hp, h'⟩ | ⟨k, r, -, h'⟩⟩ := cycle_cases s <;> rw [h'] at h
  · cases h
    exact .reset hr
  · cases h
    exact .stay hr
  · exact transition_of_progress hr (fun _ => .inl (by omega)) h
  · exact transition_of_progress hr (fun _ => .inr ⟨w, hp, by omega⟩) h
  · cases h
    exact transition_offerResponse hr _

/-! ## The invariant -/

/-- An idle block has no response and no wait to bound. -/
theorem State.inv_of_idle {s : State} (hp : s.phase = .idle) (hs : s.ScheduleLoaded) : s.Inv :=
  ⟨hs, fun _ _ h => by simp [hp] at h, fun _ _ h => by simp [hp] at h⟩

theorem Transition.keeps_inv {s t : State} (h : Transition s t) (hs : s.Inv) : t.Inv := by
  obtain ⟨hsched, hrsp, hwait⟩ := hs
  cases h with
  | reset => exact State.inv_of_idle rfl (fun h => by simp at h)
  | stay => exact ⟨hsched, hrsp, hwait⟩
  | consume => exact State.inv_of_idle rfl hsched
  | run hr c w hw =>
    refine ⟨hsched, fun _ _ h => (by cases h), fun c' w' h => ?_⟩
    cases h
    refine ⟨w.succ_pos, ?_⟩
    obtain hlt | ⟨v, hp, hlt⟩ := hw
    · exact hlt
    · exact hlt.trans (hwait c v hp).2
  | complete hr c ht => exact runCommand_establishes_inv ht hsched

/-- Settles O41: a step is one of the transitions, and each of them keeps the invariant. -/
theorem stepKeepsInvariant : Obligations.StepKeepsInvariant :=
  fun _ _ hs h => (transition_of_step h).keeps_inv hs

/-- Settles O42: a clock cycle is one of the same transitions, and an accepted command waits less than its latency. -/
theorem cycleKeepsInvariant : Obligations.CycleKeepsInvariant :=
  fun _ _ hs h => (transition_of_cycle h).keeps_inv hs

/-- Settles O43: after reset the block is idle and KEYED = 0. -/
theorem resetMeetsInvariant : Obligations.ResetMeetsInvariant :=
  State.inv_of_idle rfl (fun h => by cases h)

/-! ## Who writes RK and KEYED -/

theorem transition_of_step_or_cycle {s t : State} (h : step s = .next t ∨ cycle s = .next t) : Transition s t :=
  h.elim transition_of_step transition_of_cycle

/-- A transition without reset keeps both registers, unless a KEYSET completes in it. -/
theorem Transition.registers {s t : State} (h : Transition s t) (hr : s.port.rst = false) :
    (t.rk = s.rk ∧ t.keyed = s.keyed) ∨
    (t.phase = .holding .keyset { status := statusOk, data := 0 } ∧ t.keyed = true ∧ ∃ k1 k2, t.rk = keySchedule k1 k2) := by
  cases h with
  | reset hr' => simp [hr] at hr'
  | stay => exact .inl ⟨rfl, rfl⟩
  | consume => exact .inl ⟨rfl, rfl⟩
  | run => exact .inl ⟨rfl, rfl⟩
  | complete _ c ht => exact runCommand_registers (s := s.popInput) ht

/-- Settles O39, by what a transition does to the two registers. -/
theorem onlyKeysetWritesState : Obligations.OnlyKeysetWritesState := by
  intro s t hr h hne
  obtain ⟨hrk, hk⟩ | hset := (transition_of_step_or_cycle h).registers hr
  · simp [hrk, hk] at hne
  · exact hset

theorem Transition.keyed_of_rst {s t : State} (h : Transition s t) (hr : s.port.rst = true) : t.keyed = false := by
  cases h with
  | reset => rfl
  | stay hr' | consume hr' | run hr' | complete hr' => simp [hr] at hr'

/-- Settles O40: with reset KEYED becomes 0, and without it only a KEYSET changes KEYED. -/
theorem keyedFlagTransitions : Obligations.KeyedFlagTransitions := by
  intro s t h
  have hT := transition_of_step_or_cycle h
  cases hr : s.port.rst with
  | true => simp [hT.keyed_of_rst hr]
  | false =>
    obtain ⟨-, hk⟩ | ⟨hp, hk, -⟩ := hT.registers hr
    · exact ⟨fun h1 h0 => by simp [hk, h1] at h0, fun h0 h1 => by simp [hk, h0] at h1⟩
    · simp [hk, hp]

/-! ## The schedule determines the key -/

theorem keySchedule_zero (k1 k2 : Word) : (keySchedule k1 k2)[0] = k2 := rfl

/-- Pass 0 has the round index 0 as its key, which leaves the sum of the forward round as it is. -/
theorem keySchedule_one (k1 k2 : Word) : (keySchedule k1 k2)[1] = rol64 k2 3 ^^^ (ror64 k1 8 + k2) :=
  calc (keySchedule k1 k2)[1] = (roundF k1 k2 0).2 := rfl
    _ = rol64 k2 3 ^^^ (ror64 k1 8 + k2) := by rw [roundF_eq]; simp

/-- Settles O14: XOR with the rotated low half, subtraction of it and the left rotation undo round 0 step by step. -/
theorem keyRecoveredFromSchedule : Obligations.KeyRecoveredFromSchedule := by
  intro k1 k2
  refine ⟨keySchedule_zero k1 k2, ?_⟩
  have hxor : rol64 k2 3 ^^^ (ror64 k1 8 + k2) ^^^ rol64 k2 3 = ror64 k1 8 + k2 := by
    rw [BitVec.xor_comm (rol64 k2 3), BitVec.xor_assoc, BitVec.xor_self, BitVec.xor_zero]
  rw [keySchedule_zero, keySchedule_one, hxor, BitVec.add_sub_cancel, rol64_ror64 k1 (by decide) (by decide)]

/-! ## The responses to a sequence of commands -/

theorem responses_cons {c : Command} {s t : State} {kind : Kind} {r : Response} (h : runCommand c s = .next t)
    (hp : t.phase = .holding kind r) (cs : List Command) : responses (c :: cs) s = r :: responses cs t.consume := by
  have hr : t.pending = some r := (State.pending_eq_some_iff t r).2 ⟨kind, hp⟩
  simp [responses, h, hr]

/-- The responses do not depend on the phase, because a command replaces it without reading it. -/
theorem responses_phase (ph : Phase) (cs : List Command) (s : State) :
    responses cs { s with phase := ph } = responses cs s := by
  cases cs with
  | nil => rfl
  | cons c cs => rw [responses, responses, runCommand_phase]

theorem responses_length (cs : List Command) (s : State) : (responses cs s).length = cs.length := by
  induction cs generalizing s with
  | nil => rfl
  | cons c cs ih =>
    obtain ⟨t, r, h, hp, -, -⟩ := runCommand_next c s
    simp [responses_cons h hp, ih]

/-- The state that `cs` leaves does not depend on the commands that follow. -/
theorem responses_append (cs : List Command) (s : State) :
    ∃ u, ∀ ds, responses (cs ++ ds) s = responses cs s ++ responses ds u := by
  induction cs generalizing s with
  | nil => exact ⟨s, fun _ => rfl⟩
  | cons c cs ih =>
    obtain ⟨t, r, h, hp, -, -⟩ := runCommand_next c s
    obtain ⟨u, hu⟩ := ih t.consume
    exact ⟨u, fun ds => by simp [responses_cons h hp, hu]⟩

/-- A command that is no KEYSET leaves nothing that a later command reads. -/
theorem responses_cons_of_not_keyset {c : Command} (hc : decodeKind c ≠ .keyset) (s : State) :
    ∃ r, ∀ cs, responses (c :: cs) s = r :: responses cs s := by
  obtain ⟨e, d, ⟨-, h⟩ | ⟨hk, -⟩⟩ := runCommand_cases c s
  · exact ⟨_, fun cs => (responses_cons h rfl cs).trans (congrArg _ (responses_phase .idle cs s))⟩
  · exact absurd hk hc

/-- Settles O33: the commands after the inserted one run from the state they would have run from without it. -/
theorem insertedCommandChangesNoResponse : Obligations.InsertedCommandChangesNoResponse := by
  intro cs ds c s hc
  obtain ⟨u, hu⟩ := responses_append cs s
  obtain ⟨r, hr⟩ := responses_cons_of_not_keyset hc u
  refine ⟨r, ?_⟩
  rw [hu (c :: ds), hu ds, hr ds, List.drop_left' (responses_length cs s)]

/-! ## RK cannot be observed while KEYED = 0 -/

/-- The states differ in RK at most, and with KEYED = 1 not even there. -/
def State.AgreeWhereRead (s s' : State) : Prop :=
  ∃ S : Vector Word 32, s' = { s with rk := S } ∧ (s.keyed = true → S = s.rk)

/-- Both outcomes are next states, which agree where RK is read. -/
def OutcomesAgree (o o' : Host.Outcome State Fault Refusal) : Prop :=
  ∃ t t' : State, o = .next t ∧ o' = .next t' ∧ t.AgreeWhereRead t'

theorem State.agreeWhereRead_of_unkeyed {s : State} (hk : s.keyed = false) (S : Vector Word 32) :
    s.AgreeWhereRead { s with rk := S } :=
  ⟨S, rfl, fun h => by simp [hk] at h⟩

namespace State.AgreeWhereRead
variable {s s' : State} (h : s.AgreeWhereRead s')
include h

theorem phase_eq : s'.phase = s.phase := by
  obtain ⟨S, rfl, -⟩ := h
  rfl

theorem keyed_eq : s'.keyed = s.keyed := by
  obtain ⟨S, rfl, -⟩ := h
  rfl

theorem eq_of_keyed (hk : s.keyed = true) : s' = s := by
  obtain ⟨S, rfl, hS⟩ := h
  rw [hS hk]

/-- No output port shows RK. -/
theorem portOut_eq : s'.portOut = s.portOut := by
  obtain ⟨S, rfl, -⟩ := h
  rfl

theorem popInput : s.popInput.AgreeWhereRead s'.popInput := by
  obtain ⟨S, rfl, hS⟩ := h
  exact ⟨S, rfl, hS⟩

theorem withPhase (ph : Phase) : ({ s with phase := ph } : State).AgreeWhereRead { s' with phase := ph } := by
  obtain ⟨S, rfl, hS⟩ := h
  exact ⟨S, rfl, hS⟩

theorem consume : s.consume.AgreeWhereRead s'.consume := h.withPhase .idle

theorem offerResponse (ready : Bool) : (s.offerResponse ready).AgreeWhereRead (s'.offerResponse ready) := by
  cases ready with
  | true => exact h.consume
  | false => exact h

/-- Whatever the reset leaves in the two round-key files, KEYED = 0 after it. -/
theorem resetCycle : s.resetCycle.AgreeWhereRead s'.resetCycle := by
  obtain ⟨S, rfl, -⟩ := h
  exact State.agreeWhereRead_of_unkeyed rfl _

end State.AgreeWhereRead

/-- A meaning reads RK only where KEYED = 1, and a KEYSET writes all of it. -/
theorem exec_agree (i : Instr) {s s' : State} (h : s.AgreeWhereRead s') : OutcomesAgree (exec i s) (exec i s') := by
  cases hk : s.keyed with
  | true =>
    obtain ⟨t, -, ht, -, -⟩ := exec_answer i s
    rw [h.eq_of_keyed hk]
    exact ⟨t, t, ht, ht, t.rk, rfl, fun _ => rfl⟩
  | false =>
    have hk' : s'.keyed = false := h.keyed_eq.trans hk
    cases i with
    | keyset a k =>
      obtain ⟨S, rfl, -⟩ := h
      exact ⟨_, _, exec_keyset a k _, exec_keyset a k _, _, rfl, fun _ => rfl⟩
    | encrypt a k => exact ⟨_, _, exec_encrypt_unkeyed a k hk, exec_encrypt_unkeyed a k hk', h.withPhase _⟩
    | decrypt a k => exact ⟨_, _, exec_decrypt_unkeyed a k hk, exec_decrypt_unkeyed a k hk', h.withPhase _⟩
    | round a k => exact ⟨_, _, exec_round a k s, exec_round a k s', h.withPhase _⟩
    | invround a k => exact ⟨_, _, exec_invround a k s, exec_invround a k s', h.withPhase _⟩

theorem runCommand_agree (c : Command) {s s' : State} (h : s.AgreeWhereRead s') :
    OutcomesAgree (runCommand c s) (runCommand c s') := by
  cases hc : decode c with
  | ok i => simpa only [runCommand_of_ok hc] using exec_agree i h
  | error e =>
    simp only [runCommand_of_error hc]
    exact ⟨_, _, rfl, rfl, h.withPhase _⟩

theorem responses_agree (cs : List Command) {s s' : State} (h : s.AgreeWhereRead s') :
    responses cs s' = responses cs s := by
  induction cs generalizing s s' with
  | nil => rfl
  | cons c cs ih =>
    obtain ⟨t, r, ht, hp, -, -⟩ := runCommand_next c s
    obtain ⟨_, t', h1, ht', hagree⟩ := runCommand_agree c h
    cases ht.symm.trans h1
    rw [responses_cons ht hp, responses_cons ht' (hagree.phase_eq.trans hp), ih hagree.consume]

/-- Settles O46: the state after reset agrees, where RK is read, with the same state under any other RK. -/
theorem resetState : Obligations.ResetState :=
  ⟨rfl, rfl, rfl, rfl, rfl, fun S cs => responses_agree cs (State.agreeWhereRead_of_unkeyed rfl S)⟩

/-! ### Runs that agree -/

theorem step_agree {s s' : State} (h : s.AgreeWhereRead s') : OutcomesAgree (step s) (step s') := by
  have hpop := h.popInput
  obtain ⟨S, rfl, -⟩ := h
  obtain ⟨hr, hs⟩ | ⟨hr, ⟨hp, hv, hs⟩ | ⟨hp, hv, hs⟩ | ⟨c, w, hp, hs⟩ | ⟨k, r, hp, hs⟩⟩ := step_cases s <;> rw [hs]
  · exact ⟨_, _, rfl, step_of_rst hr, hpop.resetCycle⟩
  · exact ⟨_, _, rfl, step_of_idle hr hp hv, hpop⟩
  · rw [step_of_command (s := { s with rk := S }) hr hp hv]
    exact runCommand_agree _ hpop
  · rw [step_of_running (s := { s with rk := S }) hr hp]
    exact runCommand_agree c hpop
  · exact ⟨_, _, rfl, step_of_holding hr hp, hpop.offerResponse _⟩

theorem steps_agree (n : Nat) {s s' : State} (h : s.AgreeWhereRead s') : OutcomesAgree (steps n s) (steps n s') := by
  induction n generalizing s s' with
  | zero => exact ⟨s, s', rfl, rfl, h⟩
  | succ n ih =>
    obtain ⟨t, t', ht, ht', hagree⟩ := step_agree h
    rw [steps_succ_of_next n ht, steps_succ_of_next n ht']
    exact ih hagree

theorem progress_agree (c : Command) (w : Nat) {s s' : State} (h : s.AgreeWhereRead s') :
    OutcomesAgree (progress c w s) (progress c w s') := by
  cases w with
  | zero => exact runCommand_agree c h
  | succ w => exact ⟨_, _, rfl, rfl, h.withPhase _⟩

theorem cycle_agree {s s' : State} (h : s.AgreeWhereRead s') : OutcomesAgree (cycle s) (cycle s') := by
  have hpop := h.popInput
  obtain ⟨S, rfl, -⟩ := h
  obtain ⟨hr, hs⟩ | ⟨hr, ⟨hp, hv, hs⟩ | ⟨hp, hv, hs⟩ | ⟨c, w, hp, hs⟩ | ⟨k, r, hp, hs⟩⟩ := cycle_cases s <;> rw [hs]
  · exact ⟨_, _, rfl, cycle_of_rst hr, hpop.resetCycle⟩
  · exact ⟨_, _, rfl, cycle_of_idle hr hp hv, hpop⟩
  · rw [cycle_of_command (s := { s with rk := S }) hr hp hv]
    exact progress_agree _ _ hpop
  · rw [cycle_of_running (s := { s with rk := S }) hr hp]
    exact progress_agree c _ hpop
  · exact ⟨_, _, rfl, cycle_of_holding hr hp, hpop.offerResponse _⟩

theorem cycles_agree (n : Nat) {s s' : State} (h : s.AgreeWhereRead s') : OutcomesAgree (cycles n s) (cycles n s') := by
  induction n generalizing s s' with
  | zero => exact ⟨s, s', rfl, rfl, h⟩
  | succ n ih =>
    obtain ⟨t, t', ht, ht', hagree⟩ := cycle_agree h
    rw [cycles_succ_of_next n ht, cycles_succ_of_next n ht']
    exact ih hagree

/-- Settles O47: runs at either level from states that agree where RK is read end in such states. -/
theorem unkeyedRoundKeysUnobservable : Obligations.UnkeyedRoundKeysUnobservable := by
  intro s S n hk
  have hagree : s.AgreeWhereRead { s with rk := S } := State.agreeWhereRead_of_unkeyed hk S
  obtain ⟨t, t', ht, ht', h⟩ := steps_agree n hagree
  obtain ⟨u, u', hu, hu', h'⟩ := cycles_agree n hagree
  exact ⟨⟨t, t', ht, ht', h.portOut_eq⟩, ⟨u, u', hu, hu', h'.portOut_eq⟩⟩

/-! ## The STATUS port and BUSY -/

theorem statusPort_bits (s : State) : s.statusPort.getLsbD 0 = s.keyed ∧ s.statusPort.getLsbD 1 = s.busy ∧
    s.statusPort.extractLsb' 2 6 = 0 := by
  unfold State.statusPort
  cases s.busy <;> cases s.keyed <;> decide

theorem State.cmdReady_iff (s : State) : s.cmdReady = true ↔ s.phase = .idle ∧ s.port.rst = false := by
  simp [State.cmdReady, State.busy_eq_false_iff]

theorem State.rspValid_iff (s : State) : s.rspValid = true ↔ ∃ k r, s.phase = .holding k r := by
  cases h : s.phase <;> simp [State.rspValid, State.pending, h]

theorem State.busy_of_holding {s : State} {k : Kind} {r : Response} (h : s.phase = .holding k r) : s.busy = true := by
  simp [State.busy, h]

/-- A command in progress keeps the block busy, in the cycle that completes it too. -/
theorem progress_busy (c : Command) (w : Nat) (s : State) : ∃ t, progress c w s = .next t ∧ t.busy = true := by
  cases w with
  | zero =>
    obtain ⟨t, r, h, hp, -, -⟩ := runCommand_next c s
    exact ⟨t, h, State.busy_of_holding hp⟩
  | succ w => exact ⟨_, rfl, rfl⟩

theorem cycle_busy_of_accept {s : State} (hr : s.cmdReady = true) (hv : s.port.cmdValid = true) :
    s.busy = false ∧ ∃ t, cycle s = .next t ∧ t.busy = true := by
  obtain ⟨hp, hrst⟩ := s.cmdReady_iff.1 hr
  rw [cycle_of_command hrst hp hv]
  exact ⟨s.busy_eq_false_iff.2 hp, progress_busy _ _ _⟩

theorem offerResponse_busy {s : State} (hb : s.busy = true) (ready : Bool) :
    (s.offerResponse ready).busy = false ↔ ready = true := by
  cases ready with
  | true => exact ⟨fun _ => rfl, fun _ => rfl⟩
  | false => simp [hb]

theorem cycle_busy_of_busy {s : State} (hb : s.busy = true) (hr : s.port.rst = false) :
    ∃ t, cycle s = .next t ∧ (t.busy = false ↔ s.rspValid = true ∧ s.port.rspReady = true) := by
  cases hp : s.phase with
  | idle => simp [s.busy_eq_false_iff.2 hp] at hb
  | running c w =>
    obtain ⟨t, ht, hbusy⟩ := progress_busy c (w - 1) s.popInput
    exact ⟨t, (cycle_of_running hr hp).trans ht, by simp [hbusy, s.rspValid_iff, hp]⟩
  | holding k r =>
    have hv : s.rspValid = true := s.rspValid_iff.2 ⟨k, r, hp⟩
    exact ⟨_, cycle_of_holding hr hp, by simp [offerResponse_busy (s := s.popInput) hb, hv]⟩

theorem cycle_busy_of_no_command {s : State} (hb : s.busy = false) (hv : s.port.cmdValid = false) :
    ∃ t, cycle s = .next t ∧ t.busy = false := by
  cases hr : s.port.rst with
  | true => exact ⟨_, cycle_of_rst hr, rfl⟩
  | false => exact ⟨_, cycle_of_idle hr (s.busy_eq_false_iff.1 hb) hv, hb⟩

/-- Settles O48: the bits of the port, and one clock cycle of an accepting, a busy and an idle block. -/
theorem statusPort : Obligations.StatusPort :=
  ⟨statusPort_bits, fun _ => cycle_busy_of_accept, fun _ => cycle_busy_of_busy, fun _ => cycle_busy_of_no_command⟩

end Sys2Proof.Machine
end

section
/-! Sequences of commands that are no KEYSET (20_memory.md R44, R46): they leave the state that a later command reads, so what
a KEYSET wrote is still used after them. -/

namespace Sys2Proof

/-- The encoder's opcode byte selects the instruction again, with its own operands (30_encoding.md R57, R65). -/
theorem decode_encode (i : Instr) : decode (encode i) = .ok i := by
  cases i <;> simp [decode, encode, opcodeOf, rsvOf, funcOf, fieldA, fieldK]

end Sys2Proof

namespace Sys2Proof.Machine

theorem runCommand_encode (i : Instr) (s : State) : runCommand (encode i) s = exec i s :=
  runCommand_of_ok (decode_encode i) s

/-- The commands after a sequence without KEYSET run from the state before it. -/
theorem responses_append_of_not_keyset {cs : List Command} (hcs : ∀ d ∈ cs, decodeKind d ≠ .keyset) (ds : List Command)
    (s : State) : responses (cs ++ ds) s = responses cs s ++ responses ds s := by
  induction cs with
  | nil => rfl
  | cons c cs ih =>
    obtain ⟨hc, hcs⟩ := List.forall_mem_cons.1 hcs
    obtain ⟨r, hr⟩ := responses_cons_of_not_keyset hc s
    rw [List.cons_append, hr, hr, ih hcs, List.cons_append]

/-- Settles O32: both issues of the command run from the same state. -/
theorem repeatedCommandSameResponse : Obligations.RepeatedCommandSameResponse := by
  intro c cs s hc hcs
  obtain ⟨r, hr⟩ := responses_cons_of_not_keyset hc s
  exact ⟨r, responses cs s, by
    rw [List.cons_append, hr, responses_append_of_not_keyset hcs, hr, List.cons_append, responses]⟩

/-! ## KEYSET, and the commands that use its schedule -/

/-- The commands after a KEYSET run from a state that holds the schedule of its key (41_block_cipher.md R104). -/
theorem responses_cons_of_keyset (key : Block) (k : Word) (s : State) :
    ∃ u : State, u.keyed = true ∧ u.rk = keySchedule (highHalf key) (lowHalf key) ∧
      ∀ cs, responses (encode (.keyset key k) :: cs) s = { status := statusOk, data := 0 } :: responses cs u :=
  ⟨_, rfl, rfl, responses_cons ((runCommand_encode _ s).trans (exec_keyset key k s)) rfl⟩

section Keyed
variable (b : Block) (k : Word) {s : State} (h : s.keyed = true)
include h

theorem responses_encrypt_keyed :
    responses [encode (.encrypt b k)] s = [{ status := statusOk, data := encryptF s.rk b }] :=
  responses_cons ((runCommand_encode _ s).trans (exec_encrypt_keyed b k h)) rfl []

theorem responses_decrypt_keyed :
    responses [encode (.decrypt b k)] s = [{ status := statusOk, data := decryptF s.rk b }] :=
  responses_cons ((runCommand_encode _ s).trans (exec_decrypt_keyed b k h)) rfl []

end Keyed

/-- Settles O31: the commands between leave the schedule and KEYED as the KEYSET wrote them. -/
theorem encryptAfterKeysetUsesItsSchedule : Obligations.EncryptAfterKeysetUsesItsSchedule := by
  intro key b k k' cs s hcs
  obtain ⟨u, hkeyed, hrk, hu⟩ := responses_cons_of_keyset key k s
  refine ⟨responses cs u, responses_length cs u, ?_, ?_⟩ <;>
    rw [List.cons_append, hu, responses_append_of_not_keyset hcs]
  · rw [responses_encrypt_keyed b k' hkeyed, hrk]; rfl
  · rw [responses_decrypt_keyed b k' hkeyed, hrk]; rfl

end Sys2Proof.Machine
end

section
/-! The command word and DECODE (30_encoding.md R55 to R57, R65): the fields at their places, the decoder as the inverse of the
encoder, and the opcode bytes it rejects (R60). -/

namespace Sys2Proof

/-! ## The command word -/

/-- A field of a field is a field of the whole, where it lies inside. -/
theorem extractLsb'_extractLsb'_of_add_le {n start len start' len' : Nat} (w : BitVec n) (h : start' + len' ≤ len) :
    (w.extractLsb' start len).extractLsb' start' len' = w.extractLsb' (start + start') len' := by
  apply BitVec.eq_of_getLsbD_eq
  intro i hi
  have hlt : start' + i < len := by omega
  simp [hi, hlt, Nat.add_assoc]

/-- The three fields of a word are adjacent, so `OP || A || K` of them is the word. -/
@[simp] theorem Command.toWord_ofWord (w : BitVec 200) : (Command.ofWord w).toWord = w := by
  have hopA : (w.extractLsb' 192 8 ++ w.extractLsb' 64 128 : BitVec (8 + 128)) = w.extractLsb' 64 (8 + 128) :=
    BitVec.extractLsb'_append_extractLsb'_eq_extractLsb' rfl
  have hwhole : (w.extractLsb' 64 (8 + 128) ++ w.extractLsb' 0 64 : BitVec (8 + 128 + 64)) =
      w.extractLsb' 0 (8 + 128 + 64) :=
    BitVec.extractLsb'_append_extractLsb'_eq_extractLsb' rfl
  rw [Command.toWord, Command.ofWord, hopA, hwhole]
  exact BitVec.extractLsb'_eq_self

section Fields
variable (c : Command)

theorem Command.toWord_op : c.toWord.extractLsb' 192 8 = c.op :=
  (BitVec.extractLsb'_append_eq_of_le (by decide)).trans BitVec.extractLsb'_append_eq_left

theorem Command.toWord_a : c.toWord.extractLsb' 64 128 = c.a :=
  (BitVec.extractLsb'_append_eq_of_le (by decide)).trans BitVec.extractLsb'_append_eq_right

theorem Command.toWord_k : c.toWord.extractLsb' 0 64 = c.k :=
  BitVec.extractLsb'_append_eq_right

@[simp] theorem Command.ofWord_toWord : Command.ofWord c.toWord = c := by
  rw [Command.ofWord, c.toWord_op, c.toWord_a, c.toWord_k]

theorem Command.toWord_toNat : c.toWord.toNat = c.op.toNat * 2 ^ 192 + c.a.toNat * 2 ^ 64 + c.k.toNat := by
  rw [Command.toWord, BitVec.toNat_append, ← Nat.shiftLeft_add_eq_or_of_lt c.k.isLt, BitVec.toNat_append,
    ← Nat.shiftLeft_add_eq_or_of_lt c.a.isLt]
  simp only [Nat.shiftLeft_eq]
  omega

end Fields

/-! ## The decoder as the inverse of the encoder -/

/-- An opcode byte with RSV = 0 is its FUNC. -/
theorem op_eq_of_fields {op : BitVec 8} {func : BitVec 4} (hrsv : rsvOf op = 0) (hfunc : funcOf op = func) :
    op = (0#4 ++ func : BitVec (4 + 4)) := by
  rw [op_eq_append op, hrsv, hfunc]
  rfl

/-- The decoder accepts the encoded instructions and nothing else: RSV and FUNC leave no other opcode byte. -/
theorem decode_eq_ok_iff (c : Command) (i : Instr) : decode c = .ok i ↔ encode i = c := by
  refine ⟨fun h => ?_, fun h => h ▸ decode_encode i⟩
  obtain ⟨op, a, k⟩ := c
  obtain ⟨h', -⟩ | ⟨hrsv, ⟨hfunc, h'⟩ | ⟨hfunc, h'⟩ | ⟨hfunc, h'⟩ | ⟨hfunc, h'⟩ | ⟨hfunc, h'⟩ | ⟨-, h'⟩⟩ :=
    decode_cases ⟨op, a, k⟩ <;> cases h.symm.trans h' <;> cases op_eq_of_fields hrsv hfunc <;> rfl

/-- Settles O1: the decoder inverts the encoder on commands, and a command and its word determine each other. -/
theorem decodeEncodeAgree : Obligations.DecodeEncodeAgree := by
  refine ⟨fun i => ?_, fun w i h => ?_⟩
  · rw [decodeWord, encodeWord, Command.ofWord_toWord, decode_encode]
  · rw [encodeWord, (decode_eq_ok_iff _ i).1 h, Command.toWord_ofWord]

theorem rsvOf_of_decode_ok {c : Command} {i : Instr} (h : decode c = .ok i) : rsvOf c.op = 0 := by
  obtain ⟨h', -⟩ | ⟨hrsv, -⟩ := decode_cases c
  · cases h.symm.trans h'
  · exact hrsv

/-- Settles O2: a field of a field stands at the sum of the places, a command and its word determine each other, and only
RSV = 0 decodes. -/
theorem commandWordFields : Obligations.CommandWordFields :=
  ⟨fun w => ⟨extractLsb'_extractLsb'_of_add_le w (by decide), extractLsb'_extractLsb'_of_add_le w (by decide),
      extractLsb'_extractLsb'_of_add_le w (by decide), extractLsb'_extractLsb'_of_add_le w (by decide), rfl,
      Command.toWord_ofWord w⟩,
    fun c => ⟨c.ofWord_toWord, c.toWord_toNat⟩, fun _ _ => rsvOf_of_decode_ok⟩

/-! ## DECODE by the opcode byte -/

theorem decodeKind_encode (i : Instr) : decodeKind (encode i) = i.kind :=
  decodeKind_of_ok (decode_encode i)

theorem op_of_decode_ok {c : Command} {i : Instr} (h : decode c = .ok i) : c.op = opcodeOf i := by
  rw [← (decode_eq_ok_iff c i).1 h, encode_op]

/-- A command with the opcode byte of an instruction is of its kind: the operands A and K do not matter. -/
theorem decodeKind_of_op {c : Command} {i : Instr} (h : c.op = opcodeOf i) : decodeKind c = i.kind := by
  obtain ⟨op, a, k⟩ := c
  obtain rfl : op = opcodeOf i := h
  cases i with
  | keyset => exact decodeKind_encode (.keyset a k)
  | encrypt => exact decodeKind_encode (.encrypt a k)
  | decrypt => exact decodeKind_encode (.decrypt a k)
  | round => exact decodeKind_encode (.round a k)
  | invround => exact decodeKind_encode (.invround a k)

/-- Settles O4: each of the five opcode bytes gives its kind, and a command that decodes has one of them. -/
theorem decodeByOpcodeByte : Obligations.DecodeByOpcodeByte := by
  refine fun c => ⟨decodeKind_of_op (i := .keyset 0 0), decodeKind_of_op (i := .encrypt 0 0),
    decodeKind_of_op (i := .decrypt 0 0), decodeKind_of_op (i := .round 0 0), decodeKind_of_op (i := .invround 0 0),
    fun h1 h2 h3 h4 h5 => ?_⟩
  cases hd : decode c with
  | error e => exact decodeKind_of_error hd
  | ok i =>
    have hop : c.op = opcodeOf i := op_of_decode_ok hd
    cases i with
    | keyset => exact absurd hop h1
    | encrypt => exact absurd hop h2
    | decrypt => exact absurd hop h3
    | round => exact absurd hop h4
    | invround => exact absurd hop h5

/-! ## The ranges of legal and illegal opcode bytes -/

theorem rsvOf_toNat (op : BitVec 8) : (rsvOf op).toNat = op.toNat / 16 := by
  have hlt : op.toNat / 16 < 16 := Nat.div_lt_of_lt_mul op.isLt
  rw [rsvOf, BitVec.extractLsb'_toNat, Nat.shiftRight_eq_div_pow, Nat.mod_eq_of_lt hlt]

theorem rsvOf_eq_zero_iff (op : BitVec 8) : rsvOf op = 0 ↔ op.toNat < 0x10 := by
  rw [← BitVec.toNat_inj, rsvOf_toNat]
  exact Nat.div_eq_zero_iff_lt (by decide)

theorem op_toNat_of_rsv_zero {op : BitVec 8} (h : rsvOf op = 0) : op.toNat = (funcOf op).toNat := by
  rw [funcOf, BitVec.extractLsb'_toNat]
  exact (Nat.mod_eq_of_lt ((rsvOf_eq_zero_iff op).1 h)).symm

/-- The unassigned values of FUNC (30_encoding.md R60). -/
theorem func_range_of_unassigned {func : BitVec 4} (h : func ∉ [1, 2, 3, 4, 5]) :
    func.toNat = 0x00 ∨ (0x06 ≤ func.toNat ∧ func.toNat ≤ 0x0f) := by
  revert func
  decide

/-- What DECODE answers, by the range in which the opcode byte lies (30_encoding.md R57, R60). -/
theorem decode_by_op_range (c : Command) :
    (0x10 ≤ c.op.toNat ∧ decode c = .error .reservedBits) ∨
    ((c.op.toNat = 0x00 ∨ (0x06 ≤ c.op.toNat ∧ c.op.toNat ≤ 0x0f)) ∧ decode c = .error .unassignedFunc) ∨
    ((0x01 ≤ c.op.toNat ∧ c.op.toNat ≤ 0x05) ∧ ∃ i, decode c = .ok i) := by
  obtain ⟨h, hrsv⟩ | ⟨hrsv, hfunc⟩ := decode_cases c
  · exact .inl ⟨Nat.le_of_not_lt (mt (rsvOf_eq_zero_iff c.op).2 hrsv), h⟩
  · right
    rw [op_toNat_of_rsv_zero hrsv]
    obtain ⟨hf, h⟩ | ⟨hf, h⟩ | ⟨hf, h⟩ | ⟨hf, h⟩ | ⟨hf, h⟩ | ⟨hf, h⟩ := hfunc
    iterate 5
      · exact .inr ⟨by rw [hf]; decide, _, h⟩
    · exact .inl ⟨func_range_of_unassigned hf, h⟩

theorem decode_eq_reservedBits_iff (c : Command) : decode c = .error .reservedBits ↔ 0x10 ≤ c.op.toNat := by
  obtain ⟨hop, h⟩ | ⟨hop, h⟩ | ⟨hop, i, h⟩ := decode_by_op_range c <;> simp [h] <;> omega

theorem decode_eq_unassignedFunc_iff (c : Command) :
    decode c = .error .unassignedFunc ↔ c.op.toNat = 0x00 ∨ (0x06 ≤ c.op.toNat ∧ c.op.toNat ≤ 0x0f) := by
  obtain ⟨hop, h⟩ | ⟨hop, h⟩ | ⟨hop, i, h⟩ := decode_by_op_range c <;> simp [h] <;> omega

theorem exists_decode_ok_iff (c : Command) : (∃ i, decode c = .ok i) ↔ 0x01 ≤ c.op.toNat ∧ c.op.toNat ≤ 0x05 := by
  obtain ⟨hop, h⟩ | ⟨hop, h⟩ | ⟨hop, i, h⟩ := decode_by_op_range c <;> simp [h] <;> omega

theorem decodeKind_eq_illegal_iff_op (c : Command) :
    decodeKind c = .illegal ↔ c.op.toNat = 0x00 ∨ 0x06 ≤ c.op.toNat := by
  rw [decodeKind_eq_illegal_iff]
  obtain ⟨hop, h⟩ | ⟨hop, h⟩ | ⟨hop, i, h⟩ := decode_by_op_range c <;> simp [h] <;> omega

theorem wellFormed_iff (c : Command) : c.wellFormed = true ↔ 0x01 ≤ c.op.toNat ∧ c.op.toNat ≤ 0x05 := by
  simp only [Command.wellFormed, Command.rsvIsZero, Command.funcIsAssigned, Bool.and_eq_true, beq_iff_eq,
    List.contains_eq_mem, decide_eq_true_eq, List.mem_cons, List.not_mem_nil, or_false]
  omega

/-- Settles O5: both sides say that the opcode byte lies between 0x01 and 0x05. -/
theorem wellFormedIffDecodes : Obligations.WellFormedIffDecodes :=
  fun c => (wellFormed_iff c).trans (exists_decode_ok_iff c).symm

/-! ## Written words -/

/-- Settles O3, by running the decoder on each written word. -/
theorem writtenWordsDecode : Obligations.WrittenWordsDecode := by
  unfold Obligations.WrittenWordsDecode
  decide +kernel

end Sys2Proof
end

section
/-! The answer to a command (30_encoding.md R60 to R62): what an illegal command gets, which fields a command reads, and one
response a command. -/

namespace Sys2Proof.Machine

theorem runCommand_of_illegal {c : Command} (h : decodeKind c = .illegal) (s : State) :
    runCommand c s = .next (s.respond .illegal statusErrIllegal 0) := by
  obtain ⟨e, he⟩ := (decodeKind_eq_illegal_iff c).1 h
  exact runCommand_of_error he s

/-- An idle block to which the host presents a command runs it. -/
theorem step_of_presented {c : Command} {s : State} (hp : s.phase = .idle) (hc : s.port = PortIn.command c) :
    step s = runCommand c s.popInput := by
  rw [step_of_command (by rw [hc]; rfl) hp (by rw [hc]; rfl), hc]
  rfl

/-- There are 256 opcode bytes, of which five are legal. -/
theorem illegal_op_count :
    ((List.range 256).filter fun n => decodeKind { op := BitVec.ofNat 8 n, a := 0, k := 0 } == .illegal).length = 251 := by
  decide +kernel

/-- Settles O6: the two ranges, the answer of `runCommand` to an illegal command, and the count. -/
theorem illegalCommandAnswer : Obligations.IllegalCommandAnswer :=
  ⟨fun c => ⟨decode_eq_reservedBits_iff c, decode_eq_unassignedFunc_iff c⟩,
    fun _ s hk hp hc => (step_of_presented hp hc).trans (runCommand_of_illegal hk s.popInput), illegal_op_count⟩

section IgnoredFields
variable (a a' : Block) (k k' : Word) (s : State)

/-- The meanings of the block cipher's commands do not name K. -/
theorem exec_ignores_k : exec (.keyset a k) s = exec (.keyset a k') s ∧ exec (.encrypt a k) s = exec (.encrypt a k') s ∧
    exec (.decrypt a k) s = exec (.decrypt a k') s :=
  ⟨rfl, rfl, rfl⟩

/-- Without a key, the answer of ENCRYPT and DECRYPT names neither operand. -/
theorem exec_unkeyed_ignores_operands (h : s.keyed = false) : exec (.encrypt a k) s = exec (.encrypt a' k') s ∧
    exec (.decrypt a k) s = exec (.decrypt a' k') s := by
  simp only [exec_encrypt_unkeyed _ _ h, exec_decrypt_unkeyed _ _ h, and_self]

end IgnoredFields

theorem runCommand_encode_congr (i j : Instr) {s : State} (h : exec i s = exec j s) :
    runCommand (encode i) s = runCommand (encode j) s := by
  rw [runCommand_encode, runCommand_encode, h]

/-- Settles O7: a legal command runs the meaning of its instruction, and an illegal one is answered without its operands. -/
theorem ignoredFieldsHaveNoEffect : Obligations.IgnoredFieldsHaveNoEffect := by
  intro op a a' k k' s
  obtain ⟨hkeyset, hencrypt, hdecrypt⟩ := exec_ignores_k a k k' s
  refine ⟨?_, fun h => ?_, fun h hk => ?_⟩
  · rintro (rfl | rfl | rfl)
    · exact runCommand_encode_congr (.keyset a k) (.keyset a k') hkeyset
    · exact runCommand_encode_congr (.encrypt a k) (.encrypt a k') hencrypt
    · exact runCommand_encode_congr (.decrypt a k) (.decrypt a k') hdecrypt
  · have hop : op.toNat = 0x00 ∨ 0x06 ≤ op.toNat := h.imp_left (congrArg BitVec.toNat)
    rw [runCommand_of_illegal ((decodeKind_eq_illegal_iff_op _).2 hop),
      runCommand_of_illegal ((decodeKind_eq_illegal_iff_op _).2 hop)]
  · obtain ⟨hencrypt, hdecrypt⟩ := exec_unkeyed_ignores_operands a a' k k' s hk
    obtain rfl | rfl := h
    · exact runCommand_encode_congr (.encrypt a k) (.encrypt a' k') hencrypt
    · exact runCommand_encode_congr (.decrypt a k) (.decrypt a' k') hdecrypt

theorem status_cases {e : StatusCode} (h : e ≠ statusReserved) :
    e = statusOk ∨ e = statusErrIllegal ∨ e = statusErrNoKey := by
  revert e
  decide

/-- Settles O30: a command's one response is a legal one. -/
theorem exactlyOneResponse : Obligations.ExactlyOneResponse := by
  refine ⟨responses_length, fun c s => ?_⟩
  obtain ⟨t, r, h, hp, hl⟩ := runCommand_answer c s
  refine ⟨r, responses_cons h hp [], status_cases hl.neverReserved, ?_⟩
  rintro (herr | hop)
  · exact hl.errorHasNoData herr
  · exact hl.keysetHasNoData (decodeKind_of_op (i := .keyset 0 0) hop)

theorem decodeTableWord_eq_some_iff (nbits w : Nat) (i : Instr) :
    decodeTableWord nbits w = some i ↔ decode (Command.ofWord (tableWord nbits w)) = .ok i := by
  unfold decodeTableWord decodeWord
  cases decode (Command.ofWord (tableWord nbits w)) <;> simp

/-- Settles O36: the block with the word on its command port is an idle one to which the host presents that command. -/
theorem fetchWordRunsNext : Obligations.FetchWordRunsNext := by
  intro s nbits w i h
  calc step (s.withFetchWord nbits w)
      = runCommand (Command.ofWord (tableWord nbits w)) (s.withFetchWord nbits w).popInput := step_of_presented rfl rfl
    _ = exec i { s with phase := .idle } := runCommand_of_ok ((decodeTableWord_eq_some_iff nbits w i).1 h) _

end Sys2Proof.Machine
end

section
/-! The assembly language (30_encoding.md R63, R64): the pseudo-instructions, and hexadecimal literals read back. -/

namespace Sys2Proof.Machine

/-! ## Pseudo-instructions -/

/-- Literals that are the values of the fields assemble to the fields. -/
theorem rawCommand_toNat (op : BitVec 8) (a : Block) (k : Word) :
    rawCommand op.toNat (some a.toNat) (some k.toNat) = { op := op, a := a, k := k } := by
  simp [rawCommand]

theorem expand_assemble (l : AsmLine) : l.expand.assemble = l.assemble := by
  cases l <;> rfl

/-- Settles O54: each line assembles as its expansion does, and `x * 2 ^ 64 + y` is the value of `x || y`. -/
theorem aliasesAreTheSameCommand : Obligations.AliasesAreTheSameCommand := by
  refine ⟨fun b key => ⟨rfl, rfl, rfl⟩, fun x y k => ?_, expand_assemble⟩
  have hxy : x.toNat * 2 ^ 64 + y.toNat = (x ++ y : Block).toNat := (join_toNat x y).symm
  rw [AsmLine.assemble, AsmLine.assemble, hxy]
  exact ⟨rawCommand_toNat 0x04 (x ++ y) k, rawCommand_toNat 0x05 (x ++ y) k⟩

/-! ## Hexadecimal literals -/

/-- The 16 digits: none is a separator, and each is read as its value. -/
theorem hexDigit_read {d : Nat} (h : d < 16) : hexDigit d ≠ '_' ∧ hexDigitValue (hexDigit d) = some d := by
  revert d
  decide

/-- Reading a digit appends it to the value read so far. -/
theorem readHexDigits_hexDigit (acc : Option Nat) {d : Nat} (h : d < 16) (cs : List Char) :
    readHexDigits acc (hexDigit d :: cs) = readHexDigits (some (acc.getD 0 * 16 + d)) cs := by
  obtain ⟨hsep, hval⟩ := hexDigit_read h
  rw [readHexDigits, if_neg hsep, hval]

/-- Reading `n` digits shifts the value read so far by `n` places and adds theirs: the last digit is the value modulo 16, and
those before it are the digits of the quotient. -/
theorem readHexDigits_hexDigits (acc : Option Nat) {n : Nat} (hn : 0 < n) (v : Nat) (hv : v < 16 ^ n) (cs : List Char) :
    readHexDigits acc (hexDigits n v ++ cs) = readHexDigits (some (acc.getD 0 * 16 ^ n + v)) cs := by
  induction n, hn using Nat.le_induction generalizing v cs with
  | base =>
    have hmod : v % 16 = v := Nat.mod_eq_of_lt hv
    simp only [hexDigits, List.nil_append, List.singleton_append, hmod]
    exact readHexDigits_hexDigit acc hv cs
  | succ n hn ih =>
    have hlt : v / 16 < 16 ^ n := Nat.div_lt_of_lt_mul (by rwa [← Nat.pow_succ'])
    have hsum : (acc.getD 0 * 16 ^ n + v / 16) * 16 + v % 16 = acc.getD 0 * 16 ^ (n + 1) + v := by
      rw [Nat.pow_succ, ← Nat.mul_assoc]
      omega
    rw [hexDigits, List.append_assoc, ih _ hlt, List.singleton_append,
      readHexDigits_hexDigit _ (Nat.mod_lt v (by decide)), Option.getD_some, hsum]

/-- Settles O55: after `0x` nothing has been read, so the value read is that of the digits. -/
theorem hexLiteralReadBack : Obligations.HexLiteralReadBack := by
  intro n v hn hv
  have h := readHexDigits_hexDigits none hn v hv []
  rw [List.append_nil, Option.getD_none, Nat.zero_mul, Nat.zero_add] at h
  exact h

end Sys2Proof.Machine
end

section
/-! The round engine (40_round_engine.md R80 to R88): the round functions in modular arithmetic and as mutual inverses, the key
schedule as a sequence of forward rounds, and the commands ROUND and INVROUND. -/

namespace Sys2Proof.Machine

/-! ## Addition and subtraction modulo `2 ^ 64` -/

/-- The carry is discarded (00_scope.md R8). -/
theorem word_add_eq_ofNat_mod (x y : Word) : x + y = BitVec.ofNat 64 ((x.toNat + y.toNat) % 2 ^ 64) := by
  bv_omega

/-- The borrow is discarded (00_scope.md R8). -/
theorem word_sub_eq_ofNat_mod (x y : Word) : x - y = BitVec.ofNat 64 ((x.toNat + 2 ^ 64 - y.toNat) % 2 ^ 64) := by
  bv_omega

/-- Settles O10: the components of a forward round, with the rotations as the library's and the sum as a number. -/
theorem roundArithmetic : Obligations.RoundArithmetic := by
  intro x y k
  rw [roundF_eq, ror64_eq_rotateRight x (by decide), rol64_eq_rotateLeft y (by decide), ← word_add_eq_ofNat_mod]
  exact ⟨rfl, rfl⟩

/-- Settles O11: the components of an inverse round, with the rotations as the library's and the difference as a number. -/
theorem inverseRoundArithmetic : Obligations.InverseRoundArithmetic := by
  intro x y k
  rw [← word_sub_eq_ofNat_mod, invRoundF_eq, ror64_eq_rotateRight _ (by decide), rol64_eq_rotateLeft _ (by decide)]
  exact ⟨rfl, rfl⟩

/-! ## The round functions are mutual inverses -/

section Inverses
variable (x y k : Word)

/-- The XOR of the two new halves is the rotated `y`, so `y` comes back first; then the key and `y` are taken off the sum. -/
@[simp] theorem invRoundF_roundF : invRoundF (roundF x y k).1 (roundF x y k).2 k = (x, y) := by
  simp only [roundF_eq, invRoundF_eq, xor_cancel_right, ror64_rol64 y (by decide : 0 < 3) (by decide),
    BitVec.add_sub_cancel, rol64_ror64 x (by decide : 0 < 8) (by decide)]

/-- The forward round restores the sum and with it `x`, and the XOR with that `x` leaves `y`. -/
@[simp] theorem roundF_invRoundF : roundF (invRoundF x y k).1 (invRoundF x y k).2 k = (x, y) := by
  simp only [roundF_eq, invRoundF_eq, ror64_rol64 _ (by decide : 0 < 8) (by decide), BitVec.sub_add_cancel,
    rol64_ror64 _ (by decide : 0 < 3) (by decide), xor_cancel_right]

end Inverses

/-- Settles O12: each function undoes the other, step by step. -/
theorem roundsAreMutualInverses : Obligations.RoundsAreMutualInverses :=
  fun x y k => ⟨invRoundF_roundF x y k, roundF_invRoundF x y k⟩

/-! ## The key schedule -/

/-- The 5-bit round index, extended, is the index as a word, since there are no more than 32 of them. -/
theorem zext64_ofNat {i : Nat} (h : i < 32) : zext64 (BitVec.ofNat 5 i) = BitVec.ofNat 64 i :=
  BitVec.setWidth_ofNat_of_le_of_lt (by decide) h

section Schedule
variable {kk : Nat → Word × Word} (hkk : ∀ i, i < 32 → kk (i + 1) = roundF (kk i).1 (kk i).2 (BitVec.ofNat 64 i))
include hkk

/-- The loop from pair `i` on records the second components of the pairs from `i` on. -/
theorem scheduleFrom_eq_map_range' (n i : Nat) (h : i + n ≤ 32) :
    scheduleFrom n i (kk i) = (List.range' i n).map fun j => (kk j).2 := by
  induction n generalizing i with
  | zero => rfl
  | succ n ih =>
    have hi : i < 32 := by omega
    rw [scheduleFrom_succ, zext64_ofNat hi, ← hkk i hi, ih (i + 1) (by omega), List.range'_succ, List.map_cons]

theorem keySchedule_getElem_of_recurrence {k1 k2 : Word} (h0 : kk 0 = (k1, k2)) (i : Nat) (h : i < 32) :
    (keySchedule k1 k2)[i] = (kk i).2 := by
  have hget : (keySchedule k1 k2)[i]? = some (kk i).2 := by
    rw [keySchedule_getElem?, ← h0, scheduleFrom_eq_map_range' hkk 32 0 (by decide)]
    simp [h]
  exact (Vector.getElem?_eq_some_iff.1 hget).2

end Schedule

/-- Settles O13: the loop records the second component of each pair, and pair 0 is the key. -/
theorem keyScheduleRecurrence : Obligations.KeyScheduleRecurrence :=
  fun k1 k2 _ h0 hkk => ⟨keySchedule_getElem_of_recurrence hkk h0, keySchedule_zero k1 k2⟩

/-! ## ROUND and INVROUND -/

/-- The DATA of a ROUND, wherever it ran, is the joined forward round of its operands. -/
theorem data_of_exec_round {a d : Block} {k : Word} {s t : State} (h : exec (.round a k) s = .next t)
    (hd : t.pending = some { status := statusOk, data := d }) :
    d = join (roundF (highHalf a) (lowHalf a) k).1 (roundF (highHalf a) (lowHalf a) k).2 := by
  cases h
  cases hd
  rfl

/-- An INVROUND on the DATA of a ROUND with the same key answers that ROUND's A. -/
theorem exec_invround_join_roundF (a : Block) (k : Word) (u : State) :
    exec (.invround (join (roundF (highHalf a) (lowHalf a) k).1 (roundF (highHalf a) (lowHalf a) k).2) k) u =
      .next (u.respond .invround statusOk a) := by
  rw [exec_invround, highHalf_join, lowHalf_join, invRoundF_roundF, join_highHalf_lowHalf]

/-- Settles O19: the meaning of ROUND is one response, and the cases of R85 are evaluated. -/
theorem roundResult : Obligations.RoundResult :=
  ⟨fun a k s => ⟨exec_round a k s, rfl⟩, by decide +kernel⟩

/-- Settles O20: the meaning of INVROUND is one response, the inverse round undoes the forward round of the ROUND, and the cases
of R86 are evaluated. -/
theorem invroundResult : Obligations.InvroundResult := by
  refine ⟨fun a k s => ⟨exec_invround a k s, rfl⟩, fun a d k s t u h hd => ?_, by decide +kernel⟩
  rw [data_of_exec_round h hd]
  exact exec_invround_join_roundF a k u

/-- Settles O23: the meanings of ROUND and INVROUND name the state in the frame of the answer only. -/
theorem roundCommandsArePure : Obligations.RoundCommandsArePure := by
  intro i hi
  cases i with
  | round a k => exact ⟨_, fun s => ⟨exec_round a k s, rfl⟩⟩
  | invround a k => exact ⟨_, fun s => ⟨exec_invround a k s, rfl⟩⟩
  | keyset | encrypt | decrypt => simp [Instr.kind] at hi

/-- Settles O26: the halves of the operands A are the working pairs of the schedule of their first. -/
theorem hostDrivenKeySchedule : Obligations.HostDrivenKeySchedule := by
  rintro key kf s t σ a rfl hround hkeyset i h
  have hpairs : ∀ j, j < 32 → split (a (j + 1)) = roundF (split (a j)).1 (split (a j)).2 (BitVec.ofNat 64 j) := by
    intro j hj
    obtain ⟨u, hu, hd⟩ := hround j hj
    rw [data_of_exec_round hu hd, split_join]
    rfl
  cases hkeyset
  exact keySchedule_getElem_of_recurrence (kk := fun j => split (a j)) hpairs rfl i h

end Sys2Proof.Machine
end

section
/-! The block cipher (41_block_cipher.md R100 to R108): the pipelines as sequences of rounds and as mutual inverses, and the
commands KEYSET, ENCRYPT and DECRYPT. -/

namespace Sys2Proof.Machine

/-! ## The pipelines as sequences of rounds -/

section Folds
variable {α β : Type} {n : Nat} {S : Vector α n} {z : Nat → β}

/-- A fold over a vector ends with element `n` of the sequence that its passes run through. -/
theorem foldl_toList_of_recurrence {f : β → α → β} (h : ∀ (i : Nat) (hi : i < n), z (i + 1) = f (z i) S[i]) :
    S.toList.foldl f (z 0) = z n := by
  obtain ⟨xs, rfl⟩ := S
  rw [← Vector.toList_toArray, Array.foldl_toList]
  exact Array.foldl_induction (fun i b => b = z i) rfl fun i b hb => by rw [hb, h i i.isLt]; rfl

/-- A fold from the end of a vector runs through its sequence downwards, from element `n` to element 0. -/
theorem foldr_toList_of_recurrence {f : α → β → β} (h : ∀ (i : Nat) (hi : i < n), z i = f S[i] (z (i + 1))) :
    S.toList.foldr f (z n) = z 0 := by
  obtain ⟨xs, rfl⟩ := S
  rw [← Vector.toList_toArray, Array.foldr_toList]
  exact Array.foldr_induction (fun i b => b = z i) rfl fun i b hb => by rw [hb, h i i.isLt]; rfl

end Folds

section Pipelines
variable {S : Vector Word 32} {b : Block} {xy : Nat → Word × Word}

/-- `ENCRYPT_F` joins the last of the pairs that start as the halves of the block (41_block_cipher.md R100). -/
theorem encryptF_of_recurrence (h0 : xy 0 = split b)
    (h : ∀ (i : Nat) (hi : i < 32), xy (i + 1) = roundF (xy i).1 (xy i).2 S[i]) :
    encryptF S b = join (xy 32).1 (xy 32).2 := by
  rw [encryptF_eq, ← h0, foldl_toList_of_recurrence h]

/-- `DECRYPT_F` starts from pair 32 and joins pair 0 (41_block_cipher.md R101). -/
theorem decryptF_of_recurrence (h32 : xy 32 = split b)
    (h : ∀ (i : Nat) (hi : i < 32), xy i = invRoundF (xy (i + 1)).1 (xy (i + 1)).2 S[i]) :
    decryptF S b = join (xy 0).1 (xy 0).2 := by
  rw [decryptF_eq, ← h32, foldr_toList_of_recurrence h]

end Pipelines

/-- Settles O15: the fold of `ENCRYPT_F` runs through the pairs upwards. -/
theorem encryptIsThirtyTwoRounds : Obligations.EncryptIsThirtyTwoRounds :=
  fun _ _ _ => encryptF_of_recurrence

/-- Settles O16: the fold of `DECRYPT_F` runs through the pairs downwards. -/
theorem decryptIsThirtyTwoInverseRounds : Obligations.DecryptIsThirtyTwoInverseRounds :=
  fun _ _ _ => decryptF_of_recurrence

/-! ## The pipelines are mutual inverses -/

section Undo
variable {α β : Type} {f : β → α → β} {g : α → β → β}

/-- Folding from the end undoes a fold from the front, the last pass first. -/
theorem foldr_foldl_of_undo (h : ∀ k z, g k (f z k) = z) (l : List α) (z : β) : l.foldr g (l.foldl f z) = z := by
  induction l generalizing z with
  | nil => rfl
  | cons k l ih => rw [List.foldl_cons, List.foldr_cons, ih, h]

/-- Folding from the front undoes a fold from the end, whose last pass is at the front. -/
theorem foldl_foldr_of_undo (h : ∀ k z, f (g k z) k = z) (l : List α) (z : β) : l.foldl f (l.foldr g z) = z := by
  induction l with
  | nil => rfl
  | cons k l ih => rw [List.foldr_cons, List.foldl_cons, h, ih]

end Undo

section Permutation
variable (S : Vector Word 32) (b : Block)

@[simp] theorem decryptF_encryptF : decryptF S (encryptF S b) = b := by
  rw [decryptF_eq, encryptF_eq, split_join,
    foldr_foldl_of_undo (fun k xy => invRoundF_roundF xy.1 xy.2 k), split, join_highHalf_lowHalf]

@[simp] theorem encryptF_decryptF : encryptF S (decryptF S b) = b := by
  rw [encryptF_eq, decryptF_eq, split_join,
    foldl_foldr_of_undo (fun k xy => roundF_invRoundF xy.1 xy.2 k), split, join_highHalf_lowHalf]

end Permutation

/-- Settles O17: each round is undone under its own round key, and SPLIT and JOIN are inverse. -/
theorem cipherIsPermutation : Obligations.CipherIsPermutation :=
  fun S => ⟨decryptF_encryptF S, encryptF_decryptF S⟩

/-! ## KEYSET, ENCRYPT and DECRYPT -/

/-- Settles O18: the meaning of KEYSET writes a schedule and answers, and neither depends on the state it runs in. -/
theorem keysetResult : Obligations.KeysetResult := by
  refine ⟨fun a k s => ⟨exec_keyset a k s, rfl⟩, fun a k k' s t h => ?_, keySchedule_zero _ _, by decide +kernel⟩
  cases h
  exact ⟨keySchedule_zero _ _, exec_keyset a k' _⟩

/-- The known answer V1 (41_block_cipher.md R105). -/
theorem encryptF_known_answer :
    encryptF (keySchedule 0x0f0e0d0c0b0a0908 0x0706050403020100) 0x6c617669757165207469206564616d20 =
      0xa65d9851797832657860fedf5c570d18 := by
  decide +kernel

/-- Settles O21: the meaning of ENCRYPT is one response, which KEYED selects, and the vectors are evaluated. -/
theorem encryptResult : Obligations.EncryptResult :=
  ⟨fun a k _ => ⟨rfl, exec_encrypt_keyed a k, exec_encrypt_unkeyed a k⟩, encryptF_known_answer, by decide +kernel⟩

section RoundTrip
variable {a d : Block} {k : Word} (k' : Word) {s t : State} (hk : s.keyed = true)
  (hd : t.pending = some { status := statusOk, data := d })
include hk hd

/-- ENCRYPT leaves the schedule and KEYED, so DECRYPT of its DATA answers its plaintext. -/
theorem exec_decrypt_data_of_encrypt (h : exec (.encrypt a k) s = .next t) :
    exec (.decrypt d k') t = .next (t.respond .decrypt statusOk a) := by
  rw [exec_encrypt_keyed a k hk] at h
  cases h
  cases hd
  rw [exec_decrypt_keyed _ k' ((State.respond_keyed _ _ _ s).trans hk), State.respond_rk, decryptF_encryptF]

/-- DECRYPT leaves the schedule and KEYED, so ENCRYPT of its DATA answers its ciphertext. -/
theorem exec_encrypt_data_of_decrypt (h : exec (.decrypt a k) s = .next t) :
    exec (.encrypt d k') t = .next (t.respond .encrypt statusOk a) := by
  rw [exec_decrypt_keyed a k hk] at h
  cases h
  cases hd
  rw [exec_encrypt_keyed _ k' ((State.respond_keyed _ _ _ s).trans hk), State.respond_rk, encryptF_decryptF]

end RoundTrip

/-- Settles O22: the meaning of DECRYPT is one response, which KEYED selects; the round trips and V2, which is V1 read
backwards, follow from the inverse laws. -/
theorem decryptResult : Obligations.DecryptResult := by
  refine ⟨fun a k _ => ⟨rfl, exec_decrypt_keyed a k, exec_decrypt_unkeyed a k⟩,
    fun _ _ _ k' _ _ hk => ⟨fun h hd => exec_decrypt_data_of_encrypt k' hk hd h,
      fun h hd => exec_encrypt_data_of_decrypt k' hk hd h⟩, ?_⟩
  rw [← encryptF_known_answer, decryptF_encryptF]

/-! ## ENCRYPT as ROUND commands, DECRYPT as INVROUND commands -/

section RoundCommand
variable {a d : Block} {k : Word} {s : State}

/-- The halves of the DATA of a ROUND are the forward round of the halves of its A. -/
theorem split_data_of_round
    (h : ∃ t, exec (.round a k) s = .next t ∧ t.pending = some { status := statusOk, data := d }) :
    split d = roundF (split a).1 (split a).2 k := by
  obtain ⟨t, ht, hd⟩ := h
  rw [data_of_exec_round ht hd, split_join]
  rfl

/-- The halves of the DATA of an INVROUND are the inverse round of the halves of its A. -/
theorem split_data_of_invround
    (h : ∃ t, exec (.invround a k) s = .next t ∧ t.pending = some { status := statusOk, data := d }) :
    split d = invRoundF (split a).1 (split a).2 k := by
  obtain ⟨t, ht, hd⟩ := h
  cases ht
  cases hd
  exact split_join _ _

end RoundCommand

section Chains
variable {S : Vector Word 32} {σ : Nat → State} {a : Nat → Block}

/-- The halves of the operands of the ROUND commands are the pairs of `ENCRYPT_F`. -/
theorem encryptF_of_round_commands
    (h : ∀ (i : Nat) (hi : i < 32), ∃ t, exec (.round (a i) S[i]) (σ i) = .next t ∧
      t.pending = some { status := statusOk, data := a (i + 1) }) : encryptF S (a 0) = a 32 := by
  rw [encryptF_of_recurrence (xy := fun i => split (a i)) rfl fun i hi => split_data_of_round (h i hi)]
  exact join_highHalf_lowHalf (a 32)

/-- The halves of the operands of the INVROUND commands are the pairs of `DECRYPT_F`: pair `i` is the DATA of command
`31 - i`, whose round key is entry `i`. -/
theorem decryptF_of_invround_commands
    (h : ∀ (i : Nat) (hi : i < 32), ∃ t, exec (.invround (a i) S[31 - i]) (σ i) = .next t ∧
      t.pending = some { status := statusOk, data := a (i + 1) }) : decryptF S (a 0) = a 32 := by
  have hpairs : ∀ (i : Nat) (hi : i < 32),
      split (a (32 - i)) = invRoundF (split (a (32 - (i + 1)))).1 (split (a (32 - (i + 1)))).2 S[i] := by
    intro i hi
    obtain ⟨j, hj, rfl⟩ : ∃ j, j < 32 ∧ i = 31 - j := ⟨31 - i, by omega, by omega⟩
    rw [(by omega : 32 - (31 - j) = j + 1), (by omega : 32 - (31 - j + 1) = j)]
    exact split_data_of_invround (h j hj)
  rw [decryptF_of_recurrence (xy := fun i => split (a (32 - i))) rfl hpairs]
  exact join_highHalf_lowHalf (a 32)

end Chains

/-- Settles O25: the chains of commands are the rounds of the pipelines, whose result is the DATA of ENCRYPT and of DECRYPT. -/
theorem encryptEqualsRoundCommands : Obligations.EncryptEqualsRoundCommands := by
  rintro s _ k σ a hk rfl
  refine ⟨fun h => ⟨_, exec_encrypt_keyed (a 0) k hk, ?_⟩, fun h => ⟨_, exec_decrypt_keyed (a 0) k hk, ?_⟩⟩
  · rw [encryptF_of_round_commands h]; rfl
  · rw [decryptF_of_invround_commands h]; rfl

end Sys2Proof.Machine
end

section
/-! Exceptions (60_exceptions.md R130 to R134): which commands answer OK, ERR_ILLEGAL and ERR_NOKEY and in what order the checks
are made, the step function case by case on OP, and that every step and every clock cycle goes on. -/

namespace Sys2Proof

/-! ## The kind of a command and its opcode byte -/

theorem exists_decode_ok_of_kind {c : Command} (h : decodeKind c ≠ .illegal) :
    ∃ i, decode c = .ok i ∧ decodeKind c = i.kind := by
  cases hd : decode c with
  | ok i => exact ⟨i, rfl, decodeKind_of_ok hd⟩
  | error e => exact absurd (decodeKind_of_error hd) h

theorem Instr.kind_ne_illegal (i : Instr) : i.kind ≠ .illegal := by
  cases i <;> exact nofun

/-- The opcode byte of the commands of a kind (30_encoding.md R57). -/
def Kind.opcode : Kind → Option (BitVec 8)
  | .keyset => some 0x01#8
  | .encrypt => some 0x02#8
  | .decrypt => some 0x03#8
  | .round => some 0x04#8
  | .invround => some 0x05#8
  | .illegal => none

@[simp] theorem Instr.kind_opcode (i : Instr) : i.kind.opcode = some (opcodeOf i) := by
  cases i <;> rfl

/-- Instructions of one kind have one opcode byte. -/
theorem opcodeOf_eq_of_kind_eq {i j : Instr} (h : i.kind = j.kind) : opcodeOf i = opcodeOf j := by
  simpa using congrArg Kind.opcode h

/-- The kind of a legal command and its opcode byte determine each other. -/
theorem decodeKind_eq_kind_iff_op (c : Command) (i : Instr) : decodeKind c = i.kind ↔ c.op = opcodeOf i := by
  refine ⟨fun h => ?_, decodeKind_of_op⟩
  obtain ⟨j, hj, hkind⟩ := exists_decode_ok_of_kind (h ▸ i.kind_ne_illegal)
  exact (op_of_decode_ok hj).trans (opcodeOf_eq_of_kind_eq (hkind.symm.trans h))

/-- The illegal opcode bytes are those that are none of the five (30_encoding.md R57, R60). -/
theorem decodeKind_eq_illegal_iff_not_mem (c : Command) :
    decodeKind c = .illegal ↔ c.op ∉ [0x01#8, 0x02#8, 0x03#8, 0x04#8, 0x05#8] := by
  rw [decodeKind_eq_illegal_iff_op]
  simp only [List.mem_cons, List.not_mem_nil, or_false, ← BitVec.toNat_inj, BitVec.toNat_ofNat]
  omega

end Sys2Proof

namespace Sys2Proof.Machine

/-! ## OK and ERR_NOKEY -/

/-- Settles O24: each meaning has one answer, which is OK once KEYED = 1 is given to ENCRYPT and DECRYPT. -/
theorem everyOperationCompletesOk : Obligations.EveryOperationCompletesOk := by
  intro i s hk
  cases i with
  | keyset a k => exact ⟨_, _, exec_keyset a k s, rfl, rfl⟩
  | encrypt a k => exact ⟨_, _, exec_encrypt_keyed a k (hk (.inl rfl)), rfl, rfl⟩
  | decrypt a k => exact ⟨_, _, exec_decrypt_keyed a k (hk (.inr rfl)), rfl, rfl⟩
  | round a k => exact ⟨_, _, exec_round a k s, rfl, rfl⟩
  | invround a k => exact ⟨_, _, exec_invround a k s, rfl, rfl⟩

/-- A legal command that finds KEYED = 1 where it needs it completes with OK (60_exceptions.md R130). -/
theorem runCommand_completes_ok {c : Command} {s : State} (hlegal : decodeKind c ≠ .illegal)
    (hkeyed : decodeKind c = .encrypt ∨ decodeKind c = .decrypt → s.keyed = true) :
    ∃ t r, runCommand c s = .next t ∧ t.pending = some r ∧ r.status = statusOk := by
  obtain ⟨i, hd, hkind⟩ := exists_decode_ok_of_kind hlegal
  rw [runCommand_of_ok hd]
  exact everyOperationCompletesOk i s (hkind ▸ hkeyed)

/-- ENCRYPT and DECRYPT with KEYED = 0 are answered ERR_NOKEY, and nothing else changes (60_exceptions.md R131). -/
theorem runCommand_of_unkeyed {c : Command} {s : State} (hkeyed : s.keyed = false)
    (hkind : decodeKind c = .encrypt ∨ decodeKind c = .decrypt) :
    runCommand c s = .next (s.respond (decodeKind c) statusErrNoKey 0) := by
  have hlegal : decodeKind c ≠ .illegal := fun h => by simp [h] at hkind
  obtain ⟨i, hd, hi⟩ := exists_decode_ok_of_kind hlegal
  rw [runCommand_of_ok hd, hi]
  rw [hi] at hkind
  cases i with
  | encrypt a k => exact exec_encrypt_unkeyed a k hkeyed
  | decrypt a k => exact exec_decrypt_unkeyed a k hkeyed
  | keyset | round | invround => simp [Instr.kind] at hkind

/-- Settles O28: a command is illegal, or turned away for want of a key, or completes with OK. -/
theorem errorResponses : Obligations.ErrorResponses := by
  intro c s
  have hencrypt : decodeKind c = .encrypt ↔ c.op = 0x02 := decodeKind_eq_kind_iff_op c (.encrypt 0 0)
  have hdecrypt : decodeKind c = .decrypt ↔ c.op = 0x03 := decodeKind_eq_kind_iff_op c (.decrypt 0 0)
  rw [← decodeKind_eq_illegal_iff_not_mem, ← hencrypt, ← hdecrypt]
  by_cases hillegal : decodeKind c = .illegal
  · exact ⟨_, _, runCommand_of_illegal hillegal s, rfl, iff_of_true rfl hillegal,
      iff_of_false nofun (by simp [hillegal]), nofun, fun _ => ⟨rfl, rfl⟩⟩
  by_cases hnokey : s.keyed = false ∧ (decodeKind c = .encrypt ∨ decodeKind c = .decrypt)
  · exact ⟨_, _, runCommand_of_unkeyed hnokey.1 hnokey.2, rfl, iff_of_false nofun hillegal, iff_of_true rfl hnokey,
      nofun, fun _ => ⟨rfl, rfl⟩⟩
  · have hkeyed : decodeKind c = .encrypt ∨ decodeKind c = .decrypt → s.keyed = true :=
      fun h => eq_true_of_ne_false fun hk => hnokey ⟨hk, h⟩
    obtain ⟨t, ⟨_, data⟩, h, hp, rfl⟩ := runCommand_completes_ok hillegal hkeyed
    exact ⟨t, _, h, hp, iff_of_false nofun hillegal, iff_of_false nofun hnokey, nofun, fun herr => absurd rfl herr⟩

/-- Settles O29: DECODE selects the answer before KEYED is looked at, and reset drops whatever is outstanding. -/
theorem errorPriority : Obligations.ErrorPriority := by
  refine ⟨fun c s h => ⟨_, runCommand_of_illegal h s, rfl⟩, fun c s hk h => ⟨_, runCommand_of_unkeyed hk h, rfl⟩,
    fun c s h => ?_, fun s h => ⟨_, step_of_rst h, cycle_of_rst h, rfl, rfl⟩⟩
  obtain h | h | h := h <;> exact runCommand_completes_ok (by simp [h]) (by simp [h])

/-! ## The step function case by case on OP -/

theorem exec_encrypt_response (a : Block) (k : Word) (s : State) : exec (.encrypt a k) s = .next { s with
    phase := .holding .encrypt (if s.keyed then { status := statusOk, data := encryptF s.rk a }
      else { status := statusErrNoKey, data := 0 }) } := by
  rw [exec_encrypt]
  split <;> rfl

theorem exec_decrypt_response (a : Block) (k : Word) (s : State) : exec (.decrypt a k) s = .next { s with
    phase := .holding .decrypt (if s.keyed then { status := statusOk, data := decryptF s.rk a }
      else { status := statusErrNoKey, data := 0 }) } := by
  rw [exec_decrypt]
  split <;> rfl

/-- Settles O27: an opcode byte with its operands is an encoded instruction, whose meaning is the case of STEP. -/
theorem stepFunctionOfSpec : Obligations.StepFunctionOfSpec := by
  rintro ⟨op, a, k⟩ s
  refine ⟨?_, ?_, ?_, ?_, ?_, fun h => ?_, fun hk S => responses_agree _ (State.agreeWhereRead_of_unkeyed hk S)⟩
  · rintro rfl
    exact (runCommand_encode (.keyset a k) s).trans (exec_keyset a k s)
  · rintro rfl
    exact (runCommand_encode (.encrypt a k) s).trans (exec_encrypt_response a k s)
  · rintro rfl
    exact (runCommand_encode (.decrypt a k) s).trans (exec_decrypt_response a k s)
  · rintro rfl
    exact (runCommand_encode (.round a k) s).trans (exec_round a k s)
  · rintro rfl
    exact (runCommand_encode (.invround a k) s).trans (exec_invround a k s)
  · exact runCommand_of_illegal ((decodeKind_eq_illegal_iff_op _).2 (h.imp_left (congrArg BitVec.toNat))) s

/-! ## Steps -/

/-- Settles O35: DECODE comes first, and the idle block runs what it selects. -/
theorem stepRunsDecodedInstruction : Obligations.StepRunsDecodedInstruction :=
  fun s _ hp hr hv hd => (step_of_command hr hp hv).trans (runCommand_of_ok hd s.popInput)

theorem step_next (s : State) : ∃ t, step s = .next t := by
  obtain ⟨-, h⟩ | ⟨-, ⟨-, -, h⟩ | ⟨-, -, h⟩ | ⟨c, w, -, h⟩ | ⟨k, r, -, h⟩⟩ := step_cases s
  · exact ⟨_, h⟩
  · exact ⟨_, h⟩
  · obtain ⟨t, -, ht, -⟩ := runCommand_next s.port.cmd s.popInput
    exact ⟨t, h.trans ht⟩
  · obtain ⟨t, -, ht, -⟩ := runCommand_next c s.popInput
    exact ⟨t, h.trans ht⟩
  · exact ⟨_, h⟩

theorem cycle_next (s : State) : ∃ t, cycle s = .next t := by
  obtain ⟨-, h⟩ | ⟨-, ⟨-, -, h⟩ | ⟨-, -, h⟩ | ⟨c, w, -, h⟩ | ⟨k, r, -, h⟩⟩ := cycle_cases s
  · exact ⟨_, h⟩
  · exact ⟨_, h⟩
  · obtain ⟨t, ht, -⟩ := progress_busy s.port.cmd (latencyOf s.port.cmd s - 1) s.popInput
    exact ⟨t, h.trans ht⟩
  · obtain ⟨t, ht, -⟩ := progress_busy c (w - 1) s.popInput
    exact ⟨t, h.trans ht⟩
  · exact ⟨_, h⟩

/-- Settles O38: every case of a step and of a clock cycle is a next state, or a command, which always has its answer. -/
theorem nothingStopsTheBlock : Obligations.NothingStopsTheBlock :=
  fun s => ⟨step_next s, cycle_next s⟩

/-! ## Responses do not depend on the inputs to come -/

theorem exec_withInputs (i : Instr) {s t : State} (h : exec i s = .next t) (ps : List PortIn) :
    exec i { s with inputs := ps } = .next { t with inputs := ps } := by
  cases i with
  | keyset a k | round a k | invround a k =>
    cases h
    rfl
  | encrypt a k =>
    rw [exec_encrypt_response] at h ⊢
    cases h
    rfl
  | decrypt a k =>
    rw [exec_decrypt_response] at h ⊢
    cases h
    rfl

/-- A command neither reads nor uses up the inputs that are listed. -/
theorem runCommand_withInputs {c : Command} {s t : State} (h : runCommand c s = .next t) (ps : List PortIn) :
    runCommand c { s with inputs := ps } = .next { t with inputs := ps } := by
  cases hd : decode c with
  | ok i =>
    rw [runCommand_of_ok hd] at h ⊢
    exact exec_withInputs i h ps
  | error e =>
    rw [runCommand_of_error hd] at h ⊢
    cases h
    rfl

theorem responses_withInputs (ps : List PortIn) (cs : List Command) (s : State) :
    responses cs { s with inputs := ps } = responses cs s := by
  induction cs generalizing s with
  | nil => rfl
  | cons c cs ih =>
    obtain ⟨t, r, h, hp, -, -⟩ := runCommand_next c s
    rw [responses_cons h hp, responses_cons (runCommand_withInputs h ps) hp]
    exact congrArg (r :: ·) (ih t.consume)

/-- Settles O37: the first step runs the command, and the second, with `rsp_ready` = 1, consumes its response. -/
theorem scriptedCommandGivesItsResponse : Obligations.ScriptedCommandGivesItsResponse := by
  intro s c cs rest hidle hin
  obtain ⟨t, r, h, hp, htin, -⟩ := runCommand_next c s.popInput
  have htin' : t.inputs = PortIn.consume :: rest := by rw [htin, State.popInput_inputs, hin, List.tail_cons]
  have hport : t.port = PortIn.consume := State.port_of_cons t htin'
  have hfirst : step s = .next t := (step_of_presented hidle (State.port_of_cons s hin)).trans h
  have hsecond : step t = .next t.popInput.consume := by
    rw [step_of_holding (by rw [hport]; rfl) hp, hport]
    rfl
  refine ⟨t, t.popInput.consume, r, hfirst, (State.pending_eq_some_iff t r).2 ⟨_, hp⟩, hsecond, rfl, ?_, ?_⟩
  · rw [State.consume_inputs, State.popInput_inputs, htin', List.tail_cons]
  · calc responses (c :: cs) s
        = responses (c :: cs) s.popInput := (responses_withInputs _ _ s).symm
      _ = r :: responses cs t.consume := responses_cons h hp cs
      _ = r :: responses cs t.popInput.consume := congrArg (r :: ·) (responses_withInputs _ cs t.consume).symm

end Sys2Proof.Machine
end

section
/-! Reset and the handshake (70_reset_and_hazards.md R150 to R158): what a cycle of reset leaves, the latency of a command, and
runs of clock cycles: a command in progress, a held response and an idle block. -/

namespace Sys2Proof

/-- The opcode byte alone selects the kind of a command (30_encoding.md R65). -/
theorem decodeKind_congr_op {c d : Command} (h : c.op = d.op) : decodeKind c = decodeKind d := by
  cases hd : decode d with
  | ok i => rw [decodeKind_of_ok hd, decodeKind_of_op (h.trans (op_of_decode_ok hd))]
  | error e =>
    have hill : decodeKind d = .illegal := decodeKind_of_error hd
    rw [hill, decodeKind_eq_illegal_iff_op, h, ← decodeKind_eq_illegal_iff_op, hill]

end Sys2Proof

namespace Sys2Proof.Machine

/-! ## Reset -/

theorem next_of_rst {s t : State} (hr : s.port.rst = true) (h : step s = .next t ∨ cycle s = .next t) :
    t = s.popInput.resetCycle := by
  obtain h | h := h
  · cases h.symm.trans (step_of_rst hr)
    rfl
  · cases h.symm.trans (cycle_of_rst hr)
    rfl

/-- The block is ready in the first cycle with `rst` = 0 (assumption 7). -/
theorem State.resetCycle_cmdReady (s : State) : s.resetCycle.cmdReady = !s.resetCycle.port.rst := rfl

theorem State.resetCycle_statusPort (s : State) : s.resetCycle.statusPort = 0x00#8 := by
  simp [State.statusPort, State.busy]

theorem State.cmdReady_of_rst {s : State} (hr : s.port.rst = true) : s.cmdReady = false := by
  simp [State.cmdReady, hr]

/-- Settles O44: both levels take a cycle with `rst` = 1 to `resetCycle`, whatever the state holds. -/
theorem resetCycleClears : Obligations.ResetCycleClears :=
  ⟨fun _ hr => ⟨State.cmdReady_of_rst hr, _, step_of_rst hr, cycle_of_rst hr, rfl, rfl, rfl,
      State.resetCycle_statusPort _, rfl, State.resetCycle_cmdReady _⟩,
    _, cycle_of_rst rfl, rfl, rfl⟩

theorem abortKeepsRoundKeys_iff (k : Kind) :
    abortKeepsRoundKeys k = true ↔ k ∈ [Kind.encrypt, .decrypt, .round, .invround] := by
  cases k <;> decide

theorem State.resetCycle_rk_of_kept {s : State} {k : Kind} (hp : s.phase.outstanding = some k)
    (hk : k ∈ [Kind.encrypt, .decrypt, .round, .invround]) : s.resetCycle.rk = s.rk := by
  have hkeep : abortKeepsRoundKeys k = true := (abortKeepsRoundKeys_iff k).2 hk
  obtain ⟨h, -⟩ | ⟨-, h⟩ := roundKeysAfterReset_cases s
  · exact h
  · simp [h k hp] at hkeep

/-- Settles O45: the kind of the outstanding command, running or held, decides what the reset leaves in RK, and KEYED = 0 after
it keeps every later command from reading the rest. -/
theorem resetAbortsCommand : Obligations.ResetAbortsCommand := by
  intro s t _ hr h
  obtain rfl := next_of_rst hr h
  refine ⟨rfl, rfl, rfl, fun c w hp hk => ?_, fun k r hp hk => ?_, fun S cs => ?_⟩
  · exact State.resetCycle_rk_of_kept (s := s.popInput) (by rw [State.popInput_phase, hp]; rfl) hk
  · exact State.resetCycle_rk_of_kept (s := s.popInput) (by rw [State.popInput_phase, hp]; rfl) hk
  · exact responses_agree cs (State.agreeWhereRead_of_unkeyed rfl S)

/-! ## The latency of a command -/

section Latency
variable {c : Command}

theorem latencyKind_of_encrypt (h : decodeKind c = .encrypt) (s : State) :
    latencyKind c s = if s.keyed then .encrypt else .illegal := by
  simp [latencyKind, h]

theorem latencyKind_of_decrypt (h : decodeKind c = .decrypt) (s : State) :
    latencyKind c s = if s.keyed then .decrypt else .illegal := by
  simp [latencyKind, h]

/-- Only ENCRYPT and DECRYPT have two latencies. -/
theorem latencyKind_of_ne (he : decodeKind c ≠ .encrypt) (hd : decodeKind c ≠ .decrypt) (s : State) :
    latencyKind c s = decodeKind c := by
  cases h : decodeKind c with
  | encrypt => exact absurd h he
  | decrypt => exact absurd h hd
  | keyset | round | invround | illegal => simp [latencyKind, h]

theorem latencyKind_congr {d : Command} {s t : State} (h : decodeKind c = decodeKind d)
    (hk : s.keyed = t.keyed ∨ (decodeKind c ≠ .encrypt ∧ decodeKind c ≠ .decrypt)) :
    latencyKind c s = latencyKind d t := by
  obtain hk | ⟨he, hd⟩ := hk
  · simp [latencyKind, h, hk]
  · rw [latencyKind_of_ne he hd, h, latencyKind_of_ne (h ▸ he) (h ▸ hd)]

end Latency

/-- Settles O51: the opcode byte gives the kind, and the kind and KEYED give the latency. -/
theorem latencyIsDataIndependent : Obligations.LatencyIsDataIndependent := by
  refine ⟨latencyOf_pos, fun op a a' k k' s s' => ?_⟩
  have hencrypt : decodeKind ⟨op, a, k⟩ = .encrypt ↔ op = 0x02 := decodeKind_eq_kind_iff_op _ (.encrypt 0 0)
  have hdecrypt : decodeKind ⟨op, a, k⟩ = .decrypt ↔ op = 0x03 := decodeKind_eq_kind_iff_op _ (.decrypt 0 0)
  have hother {kind : Kind} (h : decodeKind ⟨op, a, k⟩ = kind) (he : kind ≠ .encrypt) (hd : kind ≠ .decrypt) :
      latencyOf ⟨op, a, k⟩ s = Config.latency kind := by
    rw [latencyOf, latencyKind_of_ne (h ▸ he) (h ▸ hd), h]
  refine ⟨fun h => congrArg Config.latency (latencyKind_congr (decodeKind_congr_op rfl) ?_),
    fun h => hother (decodeKind_of_op (i := .keyset 0 0) h) nofun nofun,
    fun h => congrArg Config.latency (latencyKind_of_encrypt (hencrypt.2 h) s),
    fun h => congrArg Config.latency (latencyKind_of_decrypt (hdecrypt.2 h) s),
    fun h => hother (decodeKind_of_op (i := .round 0 0) h) nofun nofun,
    fun h => hother (decodeKind_of_op (i := .invround 0 0) h) nofun nofun,
    fun h => hother ((decodeKind_eq_illegal_iff_op _).2 (h.imp_left (congrArg BitVec.toNat))) nofun nofun⟩
  exact h.imp_right (And.imp (mt hencrypt.1) (mt hdecrypt.1))

/-! ## Runs of clock cycles -/

theorem State.withInputs_self {s : State} {ps : List PortIn} (h : s.inputs = ps) : { s with inputs := ps } = s := by
  rw [← h]

theorem State.popInput_of_cons {s : State} {p : PortIn} {ps : List PortIn} (h : s.inputs = p :: ps) :
    s.popInput = { s with inputs := ps } := by
  rw [State.popInput, h, List.tail_cons]

theorem cycles_one (s : State) : cycles 1 s = cycle s := by
  obtain ⟨t, ht⟩ := cycle_next s
  rw [cycles_succ_of_next 0 ht, cycles_zero, ht]

theorem cycles_add_of_next {m : Nat} {s t : State} (n : Nat) (h : cycles m s = .next t) :
    cycles (m + n) s = cycles n t := by
  induction m generalizing s with
  | zero =>
    cases h
    rw [Nat.zero_add]
  | succ m ih =>
    obtain ⟨u, hu⟩ := cycle_next s
    rw [cycles_succ_of_next m hu] at h
    rw [Nat.add_right_comm, cycles_succ_of_next _ hu, ih h]

/-- Where every input of a list makes the block stay as it is, the list is used up and nothing else changes. -/
theorem cycles_of_stay {s : State} {ps rest : List PortIn} (hin : s.inputs = ps ++ rest)
    (hstay : ∀ p ∈ ps, ∀ t : State, t.phase = s.phase → t.port = p → cycle t = .next t.popInput) :
    cycles ps.length s = .next { s with inputs := rest } := by
  induction ps generalizing s with
  | nil => exact congrArg Host.Outcome.next (State.withInputs_self hin).symm
  | cons p ps ih =>
    have hs : cycle s = .next s.popInput := hstay p List.mem_cons_self s rfl (State.port_of_cons s hin)
    have hin' : s.popInput.inputs = ps ++ rest := by rw [State.popInput_inputs, hin, List.cons_append, List.tail_cons]
    rw [List.length_cons, cycles_succ_of_next _ hs]
    exact ih hin' fun q hq => hstay q (List.mem_cons_of_mem p hq)

theorem cycle_of_holding_consumed {s : State} {k : Kind} {r : Response} (hp : s.phase = .holding k r)
    (hr : s.port.rst = false) (hready : s.port.rspReady = true) : cycle s = .next s.popInput.consume := by
  rw [cycle_of_holding hr hp, hready, State.offerResponse_true]

theorem cycle_of_holding_kept {s : State} {k : Kind} {r : Response} (hp : s.phase = .holding k r)
    (hr : s.port.rst = false) (hready : s.port.rspReady = false) : cycle s = .next s.popInput := by
  rw [cycle_of_holding hr hp, hready, State.offerResponse_false]

theorem cycles_of_holding {s : State} {k : Kind} {r : Response} {ws rest : List PortIn} (hp : s.phase = .holding k r)
    (hin : s.inputs = ws ++ rest) (hws : ∀ w ∈ ws, w.rst = false ∧ w.rspReady = false) :
    cycles ws.length s = .next { s with inputs := rest } := by
  refine cycles_of_stay hin fun w hw t ht hport => ?_
  obtain ⟨hr, hready⟩ := hws w hw
  exact cycle_of_holding_kept (ht.trans hp) (hport ▸ hr) (hport ▸ hready)

theorem cycles_of_idle {s : State} {ps rest : List PortIn} (hp : s.phase = .idle) (hin : s.inputs = ps ++ rest)
    (hps : ∀ p ∈ ps, p.rst = false ∧ p.cmdValid = false) : cycles ps.length s = .next { s with inputs := rest } := by
  refine cycles_of_stay hin fun p hmem t ht hport => ?_
  obtain ⟨hr, hv⟩ := hps p hmem
  exact cycle_of_idle (hport ▸ hr) (ht.trans hp) (hport ▸ hv)

/-- Settles O52: a held response that the host does not take stays, one cycle after the other. -/
theorem responseHeldIndefinitely : Obligations.ResponseHeldIndefinitely := by
  intro s ws rest hvalid hin hws
  obtain ⟨k, r, hp⟩ := s.rspValid_iff.1 hvalid
  exact ⟨cycles_of_holding hp hin hws, by simp [State.cmdReady, State.busy_of_holding hp]⟩

/-! ## A command in progress -/

theorem progress_phase (c : Command) (w : Nat) (ph : Phase) (s : State) :
    progress c w { s with phase := ph } = progress c w s := by
  cases w with
  | zero => exact runCommand_phase c ph s
  | succ w => rfl

theorem progress_of_pos (c : Command) {w : Nat} (hw : 0 < w) (s : State) :
    progress c w s = .next { s with phase := .running c w } := by
  cases w with
  | zero => exact absurd hw (lt_irrefl 0)
  | succ w => rfl

/-- A command that has `w` cycles to go after the present one, just accepted or already running, has as many fewer to go after
the cycles of `ps`, and nothing but the inputs has changed. -/
theorem cycles_of_progress {s : State} {c : Command} {w : Nat} {p : PortIn} {ps rest : List PortIn}
    (hs : cycle s = progress c w s.popInput) (hin : s.inputs = p :: (ps ++ rest)) (hps : ∀ q ∈ ps, q.rst = false)
    (hw : ps.length ≤ w) : cycles (ps.length + 1) s = progress c (w - ps.length) { s with inputs := rest } := by
  induction ps generalizing s w p with
  | nil => rw [List.length_nil, cycles_one, hs, State.popInput_of_cons hin, List.nil_append, Nat.sub_zero]
  | cons q ps ih =>
    rw [List.length_cons] at hw ⊢
    have hfirst : cycle s = .next { s with phase := .running c w, inputs := q :: (ps ++ rest) } := by
      rw [hs, progress_of_pos c (by omega), State.popInput_of_cons hin, List.cons_append]
    have hnext := cycle_of_running (s := { s with phase := .running c w, inputs := q :: (ps ++ rest) })
      (hps q List.mem_cons_self) rfl
    rw [cycles_succ_of_next _ hfirst, ih hnext rfl (fun x hx => hps x (List.mem_cons_of_mem q hx)) (by omega),
      Nat.sub_sub, Nat.add_comm 1]
    exact progress_phase c _ _ { s with inputs := rest }

/-- A command that `ps` brings to its completion, whose response is held during `ws` and taken with `q`. -/
theorem cycles_until_consumed {s : State} {c : Command} {p q : PortIn} {ps ws rest : List PortIn}
    (hs : cycle s = progress c ps.length s.popInput) (hin : s.inputs = p :: (ps ++ (ws ++ q :: rest)))
    (hps : ∀ x ∈ ps, x.rst = false) (hws : ∀ w ∈ ws, w.rst = false ∧ w.rspReady = false)
    (hq : q.rst = false ∧ q.rspReady = true) :
    ∃ t r, runCommand c { s with inputs := q :: rest } = .next t ∧ t.phase = .holding (decodeKind c) r ∧
      t.inputs = q :: rest ∧ cycles (ps.length + 1 + ws.length + 1) s = .next t.popInput.consume := by
  obtain ⟨t, r, ht, hp, htin, -⟩ := runCommand_next c { s with inputs := q :: rest }
  refine ⟨t, r, ht, hp, htin, ?_⟩
  have hdone : cycles (ps.length + 1) s = .next { t with inputs := ws ++ q :: rest } := by
    rw [cycles_of_progress hs hin hps le_rfl, Nat.sub_self, progress_zero]
    exact runCommand_withInputs ht (ws ++ q :: rest)
  have hheld : cycles ws.length { t with inputs := ws ++ q :: rest } = .next t := by
    rw [cycles_of_holding (s := { t with inputs := ws ++ q :: rest }) hp rfl hws]
    exact congrArg Host.Outcome.next (State.withInputs_self htin)
  have hport : t.port = q := State.port_of_cons t htin
  calc cycles (ps.length + 1 + ws.length + 1) s
      = cycles (ws.length + 1) { t with inputs := ws ++ q :: rest } := by
        rw [Nat.add_assoc _ ws.length, cycles_add_of_next _ hdone]
    _ = cycles 1 t := cycles_add_of_next 1 hheld
    _ = cycle t := cycles_one t
    _ = .next t.popInput.consume := cycle_of_holding_consumed hp (hport ▸ hq.1) (hport ▸ hq.2)

/-- Settles O53: the command completes within its `w` cycles, and the last cycle consumes the response. -/
theorem runEnds : Obligations.RunEnds := by
  refine ⟨fun s c w ps rest hp hw hin hlen hps => ?_, fun s ps rest => cycles_of_idle⟩
  obtain ⟨w, rfl⟩ := Nat.exists_eq_add_one.2 hw
  obtain ⟨p, tl, rfl⟩ := List.exists_cons_of_length_eq_add_one hlen
  obtain rfl | ⟨ps, q, rfl⟩ := List.eq_nil_or_concat' tl
  · simp at hlen
  obtain rfl : ps.length = w := by simpa using hlen
  have hport : s.port = p := State.port_of_cons s hin
  have hs := cycle_of_running (hport ▸ (hps p (by simp)).1) hp
  obtain ⟨t, r, -, -, htin, hcycles⟩ := cycles_until_consumed (q := q) (ws := []) (rest := rest) hs (by simpa using hin)
    (fun x hx => (hps x (by simp [hx])).1) nofun (hps q (by simp))
  exact ⟨_, hcycles, rfl, by rw [State.consume_inputs, State.popInput_inputs, htin, List.tail_cons]⟩

/-! ## The handshake -/

/-- Settles O50: at both levels the command runs from the same state and its response is consumed in the same one, because a held
response changes nothing. -/
theorem signalLevelRefinesTransaction : Obligations.SignalLevelRefinesTransaction := by
  intro s p q ps ws rest hidle hin hr hv hps hlat hws hqr hqready
  have hport : s.port = p := State.port_of_cons s hin
  have hs : cycle s = progress p.cmd ps.length s.popInput := by
    rw [cycle_of_command (hport ▸ hr) hidle (hport ▸ hv), hport, ← hlat, Nat.add_sub_cancel]
  obtain ⟨t, r, ht, hp, htin, hcycles⟩ := cycles_until_consumed hs hin hps hws ⟨hqr, hqready⟩
  have htport : t.port = q := State.port_of_cons t htin
  have hfirst : step { s with inputs := p :: q :: rest } = .next t :=
    (step_of_command (s := { s with inputs := p :: q :: rest }) hr hidle hv).trans ht
  have hsecond : step t = .next t.popInput.consume := by
    rw [step_of_holding (htport ▸ hqr) hp, htport, hqready, State.offerResponse_true]
  refine ⟨?_, _, hcycles, rfl, by rw [State.consume_inputs, State.popInput_inputs, htin, List.tail_cons]⟩
  rw [hcycles, steps_succ_of_next 1 hfirst, steps_succ_of_next 0 hsecond, steps_zero]

section Accepted
variable {s : State} {p : PortIn} {ps rest : List PortIn} (hin : s.inputs = p :: (ps ++ rest)) (hready : s.cmdReady = true)
  (hv : p.cmdValid = true) (hps : ∀ q ∈ ps, q.rst = false)
include hin hready hv hps

/-- `ps` are cycles before the command's latency has passed. -/
theorem cycles_of_accept (hlat : ps.length + 1 ≤ latencyOf p.cmd s) :
    cycles (ps.length + 1) s = progress p.cmd (latencyOf p.cmd s - (ps.length + 1)) { s with inputs := rest } := by
  obtain ⟨hp, hr⟩ := s.cmdReady_iff.1 hready
  have hport : s.port = p := State.port_of_cons s hin
  have hs : cycle s = progress p.cmd (latencyOf p.cmd s - 1) s.popInput := by
    rw [cycle_of_command hr hp (hport ▸ hv), hport]
  rw [cycles_of_progress hs hin hps (by omega), Nat.sub_sub, Nat.add_comm 1]

theorem cycles_before_latency {i : Nat} (hi : i < ps.length) (hlat : ps.length + 1 = latencyOf p.cmd s) :
    ∃ t, cycles (i + 1) s = .next t ∧ t.busy = true ∧ t.rspValid = false := by
  have hlen : (ps.take i).length = i := List.length_take_of_le hi.le
  have h := cycles_of_accept (ps := ps.take i) (rest := ps.drop i ++ rest)
    (by rw [← List.append_assoc, List.take_append_drop, hin]) hready hv (fun q hq => hps q (List.mem_of_mem_take hq))
    (by omega)
  rw [hlen, progress_of_pos _ (by omega)] at h
  exact ⟨_, h, rfl, rfl⟩

theorem cycles_at_latency (hlat : ps.length + 1 = latencyOf p.cmd s) :
    ∃ t, cycles (ps.length + 1) s = .next t ∧ runCommand p.cmd { s with inputs := rest } = .next t ∧
      t.rspValid = true ∧ t.busy = true := by
  obtain ⟨t, r, ht, hp, -, -⟩ := runCommand_next p.cmd { s with inputs := rest }
  have h := cycles_of_accept hin hready hv hps hlat.le
  rw [hlat, Nat.sub_self, progress_zero] at h
  exact ⟨t, hlat ▸ h.trans ht, ht, t.rspValid_iff.2 ⟨_, r, hp⟩, State.busy_of_holding hp⟩

end Accepted

/-- A block that is not ready reads no input port but `rst` and `rsp_ready`. -/
theorem cycle_congr_of_not_ready {s s' : State} (hready : s.cmdReady = false) (hphase : s'.phase = s.phase)
    (hpop : s'.popInput = s.popInput) (hrst : s'.port.rst = s.port.rst) (hrsp : s'.port.rspReady = s.port.rspReady) :
    cycle s' = cycle s := by
  cases hr : s.port.rst with
  | true => rw [cycle_of_rst hr, cycle_of_rst (hrst.trans hr), hpop]
  | false =>
    have hr' : s'.port.rst = false := hrst.trans hr
    cases hp : s.phase with
    | idle => simp [s.cmdReady_iff.2 ⟨hp, hr⟩] at hready
    | running c w => rw [cycle_of_running hr hp, cycle_of_running hr' (hphase.trans hp), hpop]
    | holding k r => rw [cycle_of_holding hr hp, cycle_of_holding hr' (hphase.trans hp), hpop, hrsp]

theorem State.rspValid_of_not_busy {s : State} (hb : s.busy = false) : s.rspValid = false := by
  have hp : s.phase = .idle := s.busy_eq_false_iff.1 hb
  simp [State.rspValid, State.pending, hp]

/-- Settles O49: the run from acceptance to the response, and one cycle of a held response, of a block that is not ready and of an
idle one. -/
theorem handshake : Obligations.Handshake := by
  refine ⟨fun _ => rfl, fun s p ps rest hin hready hv hps hlat => ⟨fun j hj hle => ?_, ?_⟩, fun s hvalid hr hready => ?_,
    fun s hvalid hr hready => ?_, fun s p q rest hin hready hrst hrsp => ?_,
    fun s hb hv => ?_⟩
  · obtain ⟨i, rfl⟩ := Nat.exists_eq_add_one.2 hj
    exact cycles_before_latency hin hready hv hps hle hlat
  · exact cycles_at_latency hin hready hv hps hlat
  · obtain ⟨k, r, hp⟩ := s.rspValid_iff.1 hvalid
    exact cycle_of_holding_kept hp hr hready
  · obtain ⟨k, r, hp⟩ := s.rspValid_iff.1 hvalid
    exact ⟨_, cycle_of_holding_consumed hp hr hready, rfl, rfl, rfl, rfl, rfl⟩
  · have hport : s.port = p := State.port_of_cons s hin
    exact cycle_congr_of_not_ready hready rfl (State.popInput_of_cons hin).symm (hport ▸ hrst) (hport ▸ hrsp)
  · obtain ⟨t, ht, hbusy⟩ := cycle_busy_of_no_command hb hv
    exact ⟨t, ht, hbusy, State.rspValid_of_not_busy hbusy⟩

end Sys2Proof.Machine
end

section
/-! A session with the block (95_test_vectors.md P1, P2): an ENCRYPT without a key, a KEYSET, an ENCRYPT and the DECRYPT of its
DATA; and the session with the known answer. -/

namespace Sys2Proof.Machine

/-- An ENCRYPT that is turned away for want of a key leaves the state to the commands after it (60_exceptions.md R131). -/
theorem responses_cons_of_encrypt_unkeyed (b : Block) (k : Word) {s : State} (h : s.keyed = false) (cs : List Command) :
    responses (encode (.encrypt b k) :: cs) s = { status := statusErrNoKey, data := 0 } :: responses cs s :=
  (responses_cons ((runCommand_encode _ s).trans (exec_encrypt_unkeyed b k h)) rfl cs).trans
    (congrArg _ (responses_phase .idle cs s))

/-- On a keyed block DECRYPT of the DATA of an ENCRYPT answers its plaintext (41_block_cipher.md R102, R106). -/
theorem responses_encrypt_decrypt_keyed (b : Block) (k k' : Word) {s : State} (h : s.keyed = true) :
    responses [encode (.encrypt b k), encode (.decrypt (encryptF s.rk b) k')] s =
      [{ status := statusOk, data := encryptF s.rk b }, { status := statusOk, data := b }] := by
  have hkind : ∀ d ∈ [encode (.encrypt b k)], decodeKind d ≠ .keyset := by
    simp [decodeKind_of_ok (decode_encode _), Instr.kind]
  calc responses ([encode (.encrypt b k)] ++ [encode (.decrypt (encryptF s.rk b) k')]) s
      = responses [encode (.encrypt b k)] s ++ responses [encode (.decrypt (encryptF s.rk b) k')] s :=
        responses_append_of_not_keyset hkind _ s
    _ = _ := by rw [responses_encrypt_keyed b k h, responses_decrypt_keyed _ k' h, decryptF_encryptF]; rfl

/-- From an unkeyed block: ENCRYPT is turned away, and under the key of the KEYSET the block `b` is encrypted and decrypted. -/
theorem responses_session (key b c : Block) (k₁ k₂ k₃ k₄ : Word) {s : State} (h : s.keyed = false)
    (hc : encryptF (keySchedule (highHalf key) (lowHalf key)) b = c) :
    responses [encode (.encrypt b k₁), encode (.keyset key k₂), encode (.encrypt b k₃), encode (.decrypt c k₄)] s =
      [{ status := statusErrNoKey, data := 0 }, { status := statusOk, data := 0 }, { status := statusOk, data := c },
       { status := statusOk, data := b }] := by
  obtain ⟨u, hkeyed, hrk, hu⟩ := responses_cons_of_keyset key k₂ s
  rw [← hrk] at hc
  subst hc
  rw [responses_cons_of_encrypt_unkeyed b k₁ h, hu, responses_encrypt_decrypt_keyed b k₃ k₄ hkeyed]

/-- Settles O34: the session with the known answer V1, on the block after reset. -/
theorem knownAnswerRun : Obligations.KnownAnswerRun :=
  responses_session 0x0f0e0d0c0b0a09080706050403020100 0x6c617669757165207469206564616d20 0xa65d9851797832657860fedf5c570d18
    0 0 0 0 rfl encryptF_known_answer

end Sys2Proof.Machine
end
